-- ==== Sys2Proof/Word.lean ====
section
/-! DEFINITION. The machine word of the pydcpu CORE (spec/00_scope.md R6, R8, R9). -/

namespace Sys2Proof

/-- A Word: an unsigned 16-bit value, 0 to 65535; sums and differences of Words wrap modulo 65536, and bit 0 is
the least significant (R8, R9).  Every register, memory cell and address of the block is one. -/
abbrev Word := BitVec 16

end Sys2Proof
end

