-- ==== Sys2Proof/Config.lean ====
section
/-! DEFINITION. What the block fixes (spec/00_scope.md R6).  The parameters of R7 stand at their decided values
in the meanings themselves (log entry 6).  There are no free values: R17, "no value the block computes is left
open". -/

namespace Sys2Proof

/-- The number of memory cells (`MEM_WORDS`, R6, R35). -/
abbrev Config.memWords : Nat := 65536

/-- What every memory cell holds after reset (R44), and so what a cell that no write has changed reads as. -/
abbrev Config.resetCell : Word := 0#16

/-- The longest instruction, in words (R78). -/
abbrev Config.longestInstruction : Nat := 3

end Sys2Proof
end

