-- ==== Sys2Proof/Syntax.lean ====
section
/-! DEFINITION. The syntax: general registers, operands (the classes of value codes, spec/30_encoding.md R74),
the 16 instructions (R80) and the three fields of an instruction word (R70). -/

namespace Sys2Proof

/-- The general registers, in index order 0 to 7 (spec/10_state.md R20). -/
inductive Reg where
  | a | b | c | x | y | z | i | j
deriving DecidableEq, Repr

/-- An operand: one value code, by its class (R74).  An extended class (`regIndOff`, `absMem`, `nextWord`) does
not carry its extension word: the resolver reads that word from memory when the tick reaches it (R76; log entry 2). -/
inductive Operand where
  /-- Codes 0 to 7: the register itself (R101). -/
  | reg (r : Reg)
  /-- Codes 8 to 15: the memory cell a register addresses (R103). -/
  | regInd (r : Reg)
  /-- Codes 16 to 23: the memory cell at register plus extension word (R104). -/
  | regIndOff (r : Reg)
  /-- Code 24 (R110). -/
  | pop
  /-- Code 25 (R111). -/
  | peek
  /-- Code 26 (R112). -/
  | push
  /-- Code 27: the stack pointer (R113). -/
  | sp
  /-- Code 28: the program counter (R114). -/
  | pc
  /-- Code 29: the overflow flag (R115). -/
  | o
  /-- Code 30: the memory cell the extension word addresses (R105). -/
  | absMem
  /-- Code 31: the extension word as a literal (R106). -/
  | nextWord
  /-- Codes 32 to 63: the small literal `v`, 0 to 31 (R75, R107). -/
  | lit (v : Word)
deriving DecidableEq, Repr

/-- The 16 instructions, one per row of the opcode map (R80), each with operand A and operand B. -/
inductive Instr where
  | nop (a b : Operand)
  | set (a b : Operand)
  | add (a b : Operand)
  | sub (a b : Operand)
  | mul (a b : Operand)
  | div (a b : Operand)
  | mod (a b : Operand)
  | shl (a b : Operand)
  | shr (a b : Operand)
  | and (a b : Operand)
  | bor (a b : Operand)
  | xor (a b : Operand)
  | ife (a b : Operand)
  | ifn (a b : Operand)
  | ifg (a b : Operand)
  | ifb (a b : Operand)
deriving DecidableEq, Repr

/-- The fields of an instruction word as plain numbers: opcode, operand-A code, operand-B code (R70, R71). -/
structure Fields where
  op : Nat
  a  : Nat
  b  : Nat
deriving DecidableEq, Repr

/-- What the failure class `FatalDecode(info)` names: the opcode or value code observed outside its defined range
(spec/60_exceptions.md R230). -/
inductive DecodeInfo where
  | opcode (n : Nat)
  | valueCode (n : Nat)
deriving DecidableEq, Repr

end Sys2Proof
end

