-- ==== Sys2Proof/WellFormed.lean ====
section
/-! DEFINITION. Which terms of the syntax stand for a machine word: a small literal is 0 to 31
(spec/30_encoding.md R75), an opcode field is 0 to 15 and a value-code field 0 to 63 (R72, R73). -/

namespace Sys2Proof

/-- Operand A of an instruction. -/
def Instr.opA : Instr → Operand
  | .nop a _ => a
  | .set a _ => a
  | .add a _ => a
  | .sub a _ => a
  | .mul a _ => a
  | .div a _ => a
  | .mod a _ => a
  | .shl a _ => a
  | .shr a _ => a
  | .and a _ => a
  | .bor a _ => a
  | .xor a _ => a
  | .ife a _ => a
  | .ifn a _ => a
  | .ifg a _ => a
  | .ifb a _ => a

/-- Operand B of an instruction. -/
def Instr.opB : Instr → Operand
  | .nop _ b => b
  | .set _ b => b
  | .add _ b => b
  | .sub _ b => b
  | .mul _ b => b
  | .div _ b => b
  | .mod _ b => b
  | .shl _ b => b
  | .shr _ b => b
  | .and _ b => b
  | .bor _ b => b
  | .xor _ b => b
  | .ife _ b => b
  | .ifn _ b => b
  | .ifg _ b => b
  | .ifb _ b => b

/-- An operand is well formed when it has a value code: every operand but a literal above 31 (R74, R75). -/
def Operand.wellFormed : Operand → Bool
  | .reg _ => true
  | .regInd _ => true
  | .regIndOff _ => true
  | .pop => true
  | .peek => true
  | .push => true
  | .sp => true
  | .pc => true
  | .o => true
  | .absMem => true
  | .nextWord => true
  | .lit v => decide (v.toNat < 32)

/-- An instruction is well formed when both its operands are. -/
def Instr.wellFormed (i : Instr) : Bool := i.opA.wellFormed && i.opB.wellFormed

/-- Fields are in their defined ranges (R72): what R230's failure class would find broken. -/
def Fields.inRange (f : Fields) : Bool := decide (f.op < 16) && decide (f.a < 64) && decide (f.b < 64)

end Sys2Proof
end

