-- ==== Sys2Proof/Decode.lean ====
section
/-! DEFINITION. The decoder and, after it, the encoder (spec/30_encoding.md R70 to R80). -/

namespace Sys2Proof

/-! ## Operands and instructions as numbers -/

/-- The register of an index; the index is taken modulo 8 (spec/10_state.md R20). -/
def Reg.ofIndex (n : Nat) : Reg :=
  match n % 8 with
  | 0 => .a
  | 1 => .b
  | 2 => .c
  | 3 => .x
  | 4 => .y
  | 5 => .z
  | 6 => .i
  | _ => .j

/-- The index of a register (R20). -/
def Reg.index : Reg → Nat
  | .a => 0
  | .b => 1
  | .c => 2
  | .x => 3
  | .y => 4
  | .z => 5
  | .i => 6
  | .j => 7

/-- How many extension words an operand consumes: one for the codes 16 to 23, 30 and 31, else none (R76, R78). -/
def Operand.extWords : Operand → Nat
  | .reg _ => 0
  | .regInd _ => 0
  | .regIndOff _ => 1
  | .pop => 0
  | .peek => 0
  | .push => 0
  | .sp => 0
  | .pc => 0
  | .o => 0
  | .absMem => 1
  | .nextWord => 1
  | .lit _ => 0

/-- How many extension words an instruction has: A's, then B's (R77). -/
def Instr.extWords (i : Instr) : Nat := i.opA.extWords + i.opB.extWords

/-- The length of an instruction in words, `1 + ext(ca) + ext(cb)` (R78). -/
def Instr.length (i : Instr) : Nat := 1 + i.extWords

/-! ## The decoder -/

/-- Field extraction (R71): `op <- w mod 16`, `ca <- floor(w / 16) mod 64`, `cb <- floor(w / 1024)`. -/
def fieldsOf (w : Word) : Fields :=
  { op := w.toNat % 16, a := w.toNat / 16 % 64, b := w.toNat / 1024 }

/-- The operand of a value code (R74).  A number above 63 is no value code and is rejected by name (R230). -/
def decodeOperand (c : Nat) : Except DecodeInfo Operand :=
  if c < 8 then .ok (.reg (.ofIndex c))
  else if c < 16 then .ok (.regInd (.ofIndex (c - 8)))
  else if c < 24 then .ok (.regIndOff (.ofIndex (c - 16)))
  else if c = 24 then .ok .pop
  else if c = 25 then .ok .peek
  else if c = 26 then .ok .push
  else if c = 27 then .ok .sp
  else if c = 28 then .ok .pc
  else if c = 29 then .ok .o
  else if c = 30 then .ok .absMem
  else if c = 31 then .ok .nextWord
  else if c < 64 then .ok (.lit (BitVec.ofNat 16 (c - 32)))
  else .error (.valueCode c)

/-- The instruction of an opcode number and two operands (R80).  A number above 15 is no opcode and is rejected
by name (R230). -/
def decodeOpcode (op : Nat) (a b : Operand) : Except DecodeInfo Instr :=
  match op with
  | 0 => .ok (.nop a b)
  | 1 => .ok (.set a b)
  | 2 => .ok (.add a b)
  | 3 => .ok (.sub a b)
  | 4 => .ok (.mul a b)
  | 5 => .ok (.div a b)
  | 6 => .ok (.mod a b)
  | 7 => .ok (.shl a b)
  | 8 => .ok (.shr a b)
  | 9 => .ok (.and a b)
  | 10 => .ok (.bor a b)
  | 11 => .ok (.xor a b)
  | 12 => .ok (.ife a b)
  | 13 => .ok (.ifn a b)
  | 14 => .ok (.ifg a b)
  | 15 => .ok (.ifb a b)
  | n + 16 => .error (.opcode (n + 16))

/-- The instruction of three fields; a field outside its defined range is rejected by name (R230). -/
def decodeFields (f : Fields) : Except DecodeInfo Instr :=
  match decodeOperand f.a with
  | .error e => .error e
  | .ok a =>
    match decodeOperand f.b with
    | .error e => .error e
    | .ok b => decodeOpcode f.op a b

/-- The instruction an instruction word stands for: step 2 of the tick (R71, spec/45_tick_sequencer.md R200). -/
def decodeWord (w : Word) : Except DecodeInfo Instr := decodeFields (fieldsOf w)

/-- Why a sequence of words holds no whole instruction. -/
inductive TextError where
  /-- The first word is `FatalDecode` (R230; unreachable by R231). -/
  | fatal (info : DecodeInfo)
  /-- Fewer words are there than the instruction's length (R78). -/
  | truncated
deriving DecidableEq, Repr

/-- Decoding a sequence of words, as they stand in memory from the instruction word on: the instruction, its
extension words, and the words after it.  The first word alone tells the length (R78). -/
def decode : List Word → Except TextError (Instr × List Word × List Word)
  | [] => .error .truncated
  | w :: rest =>
    match decodeWord w with
    | .error e => .error (.fatal e)
    | .ok i =>
      if i.extWords ≤ rest.length then .ok (i, rest.take i.extWords, rest.drop i.extWords)
      else .error .truncated

/-- The low `n` words of a number whose bit 0 is bit 0 of the first word. -/
def wordsOf : Nat → Nat → List Word
  | 0, _ => []
  | n + 1, v => BitVec.ofNat 16 v :: wordsOf n (v / 65536)

/-- The instruction the decoder reads from the table word `w` of `nbits` bits, every bit above them 0. -/
def decodeTableWord (nbits w : Nat) : Option Instr :=
  match decode (wordsOf Config.longestInstruction (w % 2 ^ nbits)) with
  | .ok (i, _, _) => some i
  | .error _ => none

/-! ## The encoder -/

/-- The value code of an operand (R74); a literal's value is taken modulo 32. -/
def Operand.code : Operand → Nat
  | .reg r => r.index
  | .regInd r => 8 + r.index
  | .regIndOff r => 16 + r.index
  | .pop => 24
  | .peek => 25
  | .push => 26
  | .sp => 27
  | .pc => 28
  | .o => 29
  | .absMem => 30
  | .nextWord => 31
  | .lit v => 32 + v.toNat % 32

/-- The opcode number of an instruction (R80). -/
def Instr.opcode : Instr → Nat
  | .nop _ _ => 0
  | .set _ _ => 1
  | .add _ _ => 2
  | .sub _ _ => 3
  | .mul _ _ => 4
  | .div _ _ => 5
  | .mod _ _ => 6
  | .shl _ _ => 7
  | .shr _ _ => 8
  | .and _ _ => 9
  | .bor _ _ => 10
  | .xor _ _ => 11
  | .ife _ _ => 12
  | .ifn _ _ => 13
  | .ifg _ _ => 14
  | .ifb _ _ => 15

/-- The three fields of an instruction. -/
def Instr.fields (i : Instr) : Fields := { op := i.opcode, a := i.opA.code, b := i.opB.code }

/-- The instruction word of three fields, `op + 16 * ca + 1024 * cb` (R73). -/
def encodeFields (f : Fields) : Word := BitVec.ofNat 16 (f.op + 16 * f.a + 1024 * f.b)

/-- The instruction word of an instruction (R73). -/
def encodeWord (i : Instr) : Word := encodeFields i.fields

/-- All the words of an instruction: its instruction word, then its extension words, A's before B's (R77). -/
def encode (i : Instr) (ext : List Word) : List Word := encodeWord i :: ext

end Sys2Proof
end

