-- ==== Sys2Proof/Machine/State.lean ====
section
/-! DEFINITION. The architectural state (spec/10_state.md), the ways a step can stop, and the state after reset. -/

namespace Sys2Proof.Machine

/-- The ways the machine stops with a fault. -/
inductive Fault where
  /-- The one failure class of the block, `FatalDecode(info)` (spec/60_exceptions.md R230): raised by the step when
  the decoder observes an opcode or value code outside its range.  It ends execution for good.  Safe: no word
  decodes to it (R231), so it stops no run. -/
  | fatalDecode (info : DecodeInfo)
deriving DecidableEq, Repr

/-- The operations the model gives no step. -/
inductive Refusal where
  /-- `exec`'s answer for an instruction that has no meaning yet; no arm gives it.  Safe. -/
  | notModelled (mnemonic : String)
  /-- `step`, for a `tick()` issued while a tick is in progress: "never", spec/10_state.md R45 and
  spec/45_tick_sequencer.md R211.  Safe: the block has no such step (U4). -/
  | tickInProgress
  /-- `hostCall`, for a host access while a tick is in progress (R40, R45, U4).  Safe. -/
  | accessDuringTick
  /-- `hostCall`, for a host number outside [0, 65535] (R34, R45, U11).  Safe. -/
  | notAWord (v : Int)
  /-- `hostCall`, for a `load` with `base + n > 65536` (R37, U1).  Safe. -/
  | loadPastEnd
  /-- `hostCall`, for a `new` with a memory size other than 65536 (R35, U3).  Safe. -/
  | memorySize (size : Int)
deriving DecidableEq, Repr

/-- The register file: the 8 general registers A, B, C, X, Y, Z, I, J (R20). -/
structure Regs where
  a : Word
  b : Word
  c : Word
  x : Word
  y : Word
  z : Word
  i : Word
  j : Word
deriving DecidableEq, Repr

/-- The memory: 65536 cells of one Word each (R30, R50, R52), as the list of the (address, Word) pairs that differ
from `Config.resetCell`, in rising order of address.  The cell is a Word, not a byte: R52, "no byte address"
(log entry 1). -/
abbrev Memory := List (Nat × Word)

/-- The memory is in its one canonical form: addresses strictly rise, every address is one of the 65536, and no
entry holds what an unlisted address reads as. -/
abbrev Memory.wf (m : Memory) : Prop :=
  m.Pairwise (fun e f => e.1 < f.1) ∧ ∀ e ∈ m, e.1 < Config.memWords ∧ e.2 ≠ Config.resetCell

/-- The architectural state: the register file (R20), the three special registers (R23), the memory (R30) and the
status output `busy` (R32).  The per-tick latches of R31 are none between ticks (R44); inside one they are the
record `Latches` of Machine/Operands.lean (log entry 5). -/
structure State where
  regs : Regs
  /-- The program counter (R24). -/
  pc   : Word
  /-- The stack pointer (R26). -/
  sp   : Word
  /-- The overflow flag, a single bit (R27). -/
  o    : Bool
  mem  : Memory
  /-- The output that is 1 from the start to the end of a tick (R32). -/
  busy : Bool
deriving DecidableEq, Repr

/-- The state after `new()`: everything zero and no tick in progress (R36, R44, R260). -/
def State.reset : State :=
  { regs := { a := 0#16, b := 0#16, c := 0#16, x := 0#16, y := 0#16, z := 0#16, i := 0#16, j := 0#16 }
    pc := 0#16
    sp := 0#16
    o := false
    mem := []
    busy := false }

end Sys2Proof.Machine
end

