-- ==== Sys2Proof/Machine/Ops.lean ====
section
/-! DEFINITION. The named operations over registers and memory, the start and the end of a tick, and raising the
one failure of the block.  The block has no trap entry and no return from one (spec/60_exceptions.md R235, R236):
`raiseFatalDecode` is all there is of taking an exception. -/

namespace Sys2Proof.Machine

/-! ## The register file (spec/10_state.md R20) -/

/-- The Word a general register holds. -/
def Regs.get (g : Regs) : Reg → Word
  | .a => g.a
  | .b => g.b
  | .c => g.c
  | .x => g.x
  | .y => g.y
  | .z => g.z
  | .i => g.i
  | .j => g.j

/-- The register file with one general register replaced. -/
def Regs.set (g : Regs) (r : Reg) (v : Word) : Regs :=
  match r with
  | .a => { g with a := v }
  | .b => { g with b := v }
  | .c => { g with c := v }
  | .x => { g with x := v }
  | .y => { g with y := v }
  | .z => { g with z := v }
  | .i => { g with i := v }
  | .j => { g with j := v }

/-! ## The memory (spec/20_memory.md) -/

/-- The Word an address holds: its entry, or the reset contents where it has none. -/
def Memory.get : Memory → Nat → Word
  | [], _ => Config.resetCell
  | (k, v) :: rest, a => if a = k then v else Memory.get rest a

/-- The memory without any entry for an address. -/
def Memory.erase : Memory → Nat → Memory
  | [], _ => []
  | (k, v) :: rest, a => if a = k then Memory.erase rest a else (k, v) :: Memory.erase rest a

/-- The memory with an entry put before the first higher address. -/
def Memory.insert : Memory → Nat → Word → Memory
  | [], a, v => [(a, v)]
  | (k, w) :: rest, a, v => if a < k then (a, v) :: (k, w) :: rest else (k, w) :: Memory.insert rest a v

/-- The memory after one cell is written; writing the reset contents removes the entry (canonical form). -/
def Memory.put (m : Memory) (a : Nat) (v : Word) : Memory :=
  if v = Config.resetCell then m.erase a else (m.erase a).insert a v

/-! ## Reads and updates of the state -/

/-- `x[r]` (R11). -/
def State.reg (s : State) (r : Reg) : Word := s.regs.get r

/-- `x[r] <- v` (R11). -/
def State.setReg (s : State) (r : Reg) (v : Word) : State := { s with regs := s.regs.set r v }

/-- `PC <- v`. -/
def State.setPc (s : State) (v : Word) : State := { s with pc := v }

/-- `SP <- v`. -/
def State.setSp (s : State) (v : Word) : State := { s with sp := v }

/-- The overflow flag set to a bit. -/
def State.setO (s : State) (b : Bool) : State := { s with o := b }

/-- The status output set to a bit (R32). -/
def State.setBusy (s : State) (b : Bool) : State := { s with busy := b }

/-- `MemRead(a, 1)`: the whole cell, with no side effect (R11, R55). -/
def State.readMem (s : State) (a : Word) : Word := s.mem.get a.toNat

/-- `MemWrite(a, 1, v)`: the whole cell (R11, R55). -/
def State.writeMem (s : State) (a v : Word) : State := { s with mem := s.mem.put a.toNat v }

/-- A run of Words written to rising addresses from `a` on (R37). -/
def State.storeWords (s : State) (a : Word) : List Word → State
  | [] => s
  | w :: ws => State.storeWords (s.writeMem a w) (a + 1#16) ws

/-- The overflow flag as the Word 0 or 1 (R27, R115). -/
def wordOfO (b : Bool) : Word := if b then 1#16 else 0#16

/-- What a write of a Word to the overflow flag stores: whether it is nonzero (R28, R121). -/
def oOfWord (v : Word) : Bool := decide (v ≠ 0#16)

/-! ## The tick (spec/45_tick_sequencer.md R200) -/

/-- `PC <- (PC + 1) mod 65536`: the increment of extension words, of the skip and of step 6 (R24, R54). -/
def State.advancePc (s : State) : State := s.setPc (s.pc + 1#16)

/-- Step 1, fetch: the instruction word at PC; PC does not change (R201). -/
def State.fetch (s : State) : Word := s.readMem s.pc

/-- `busy <- 1`, the start of a tick (R32, R200). -/
def State.beginTick (s : State) : State := s.setBusy true

/-- `busy <- 0`, the end of a tick (R32, R200). -/
def State.endTick (s : State) : State := s.setBusy false

/-- A tick's outcome with the end of the tick applied to its next state. -/
def endTickOf : Host.Outcome State Fault Refusal → Host.Outcome State Fault Refusal
  | .next t => .next t.endTick
  | .fault f => .fault f
  | .refused r => .refused r

/-- `raise FatalDecode(info)`: execution of the block ends (R230).  It saves nothing and goes nowhere (R235). -/
def raiseFatalDecode (info : DecodeInfo) : Host.Outcome State Fault Refusal := .fault (.fatalDecode info)

end Sys2Proof.Machine
end

