-- ==== Sys2Proof/Machine/Operands.lean ====
section
/-! DEFINITION. The operand resolver: all 64 value codes (spec/40_operand_resolver.md). -/

namespace Sys2Proof.Machine

/-- The location an operand resolves to (spec/00_scope.md R12). -/
inductive Loc where
  | reg (r : Reg)
  | mem (a : Word)
  | sp
  | pc
  | o
  | lit (v : Word)
deriving DecidableEq, Repr

/-- The extension word a consuming code reads, at the address after the current PC (R102). -/
def State.peekNextWord (s : State) : Word := s.readMem (s.pc + 1#16)

/-- `resolve(c)`: the location of an operand, and the state after the resolution's side effects, which are one
extension word (R102) and the stack pointer of POP and PUSH (R110, R112) and no others (R100). -/
def resolve (c : Operand) (s : State) : Loc × State :=
  match c with
  | .reg r => (.reg r, s)
  | .regInd r => (.mem (s.reg r), s)
  | .regIndOff r => (.mem (s.reg r + s.peekNextWord), s.advancePc)
  | .pop => (.mem s.sp, s.setSp (s.sp + 1#16))
  | .peek => (.mem s.sp, s)
  | .push => (.mem (s.sp - 1#16), s.setSp (s.sp - 1#16))
  | .sp => (.sp, s)
  | .pc => (.pc, s)
  | .o => (.o, s)
  | .absMem => (.mem s.peekNextWord, s.advancePc)
  | .nextWord => (.lit s.peekNextWord, s.advancePc)
  | .lit v => (.lit v, s)

/-- `read(loc)` (R120). -/
def readLoc (l : Loc) (s : State) : Word :=
  match l with
  | .reg r => s.reg r
  | .mem a => s.readMem a
  | .sp => s.sp
  | .pc => s.pc
  | .o => wordOfO s.o
  | .lit v => v

/-- `write(loc, v)`; a write to a literal is accepted and discarded (R108, R121). -/
def writeLoc (l : Loc) (v : Word) (s : State) : State :=
  match l with
  | .reg r => s.setReg r v
  | .mem a => s.writeMem a v
  | .sp => s.setSp v
  | .pc => s.setPc v
  | .o => s.setO (oOfWord v)
  | .lit _ => s

/-- What a tick latches of its operands (R31): A's location and value, B's location and value. -/
structure Latches where
  locA : Loc
  a    : Word
  locB : Loc
  b    : Word
deriving DecidableEq, Repr

/-- Step 3: resolve A and read it, then resolve B and read it, each exactly once (R202, R203).  A's value is read
before B's side effects; B sees A's. -/
def latchOperands (ca cb : Operand) (s : State) : Latches × State :=
  let resA := resolve ca s
  let resB := resolve cb resA.2
  ({ locA := resA.1, a := readLoc resA.1 resA.2, locB := resB.1, b := readLoc resB.1 resB.2 }, resB.2)

end Sys2Proof.Machine
end

