-- ==== Sys2Proof/Machine/Flags.lean ====
section
/-! DEFINITION. What an executor hands to the tick, the overflow flag of the arithmetic family, and steps 3 to 6 of
the tick (spec/00_scope.md R13, spec/42_arithmetic.md R150, spec/45_tick_sequencer.md R200). -/

namespace Sys2Proof.Machine

/-- `(result, skip, O')` (R13): the Word to write back or none, whether to skip, and the new overflow flag or
`none` for keep. -/
structure Executed where
  result : Option Word
  skip   : Bool
  o      : Option Bool
deriving DecidableEq, Repr

/-- `raw mod 65536` of an exact integer, by the non-negative remainder (R8, R150). -/
def maskRaw (raw : Int) : Word := BitVec.ofInt 16 raw

/-- The overflow law: whether the raw result lies outside [0, 65535] (R150). -/
def outOfRange (raw : Int) : Bool := decide (raw < 0 ∨ 65535 < raw)

/-- The family law of the arithmetic and shift opcodes: the masked result, no skip, O written (R150). -/
def arithmetic (raw : Int) : Executed := { result := some (maskRaw raw), skip := false, o := some (outOfRange raw) }

/-- A result with no flag: SET and the bitwise opcodes (R141, R180 to R182). -/
def moving (v : Word) : Executed := { result := some v, skip := false, o := none }

/-- A conditional: no result, a skip unless the condition holds, O kept (R194). -/
def unlessHolds (condition : Bool) : Executed := { result := none, skip := !condition, o := none }

/-- Step 4's flag update: `if O' != keep: O <- O'`. -/
def applyO (o : Option Bool) (s : State) : State :=
  match o with
  | none => s
  | some b => s.setO b

/-- Step 4's skip: PC one word further (R195). -/
def applySkip (skip : Bool) (s : State) : State := if skip then s.advancePc else s

/-- Step 5: the result, if there is one, goes to operand A's latched location (R205). -/
def writeBack (l : Loc) (result : Option Word) (s : State) : State :=
  match result with
  | none => s
  | some v => writeLoc l v s

/-- Steps 4 (after the executor), 5 and 6 of the tick: flag, skip, write-back, normal increment (R200). -/
def finishTick (l : Loc) (e : Executed) (s : State) : State :=
  (writeBack l e.result (applySkip e.skip (applyO e.o s))).advancePc

/-- Steps 3 to 6 of the tick, for an executor `f` (R200). -/
def runTick (ca cb : Operand) (f : Word → Word → Executed) (s : State) : State :=
  let latched := latchOperands ca cb s
  finishTick latched.1.locA (f latched.1.a latched.1.b) latched.2

end Sys2Proof.Machine
end

