-- ==== Sys2Proof/Machine/Arithmetic.lean ====
section
/-! DEFINITION. The seven opcodes that write the overflow flag (spec/42_arithmetic.md).  Each raw result is an exact
integer (R150). -/

namespace Sys2Proof.Machine

/-- The executor of ADD: `raw = a + b` (R151). -/
def aluAdd (a b : Word) : Executed := arithmetic ((a.toNat : Int) + (b.toNat : Int))

/-- The executor of SUB: `raw = a - b` (R153). -/
def aluSub (a b : Word) : Executed := arithmetic ((a.toNat : Int) - (b.toNat : Int))

/-- The executor of MUL: `raw = a * b` (R155). -/
def aluMul (a b : Word) : Executed := arithmetic ((a.toNat : Int) * (b.toNat : Int))

/-- The executor of DIV: the quotient, or 0 with O set for a zero divisor (R157, R161). -/
def aluDiv (a b : Word) : Executed :=
  if b = 0#16 then { result := some 0#16, skip := false, o := some true }
  else arithmetic ((a.toNat / b.toNat : Nat) : Int)

/-- The executor of MOD: the remainder, or 0 with O clear for a zero divisor (R159, R161). -/
def aluMod (a b : Word) : Executed :=
  if b = 0#16 then { result := some 0#16, skip := false, o := some false }
  else arithmetic ((a.toNat % b.toNat : Nat) : Int)

/-- The executor of SHL: `raw = a << b`, by the whole count (R163, R167). -/
def aluShl (a b : Word) : Executed := arithmetic ((a.toNat <<< b.toNat : Nat) : Int)

/-- The executor of SHR: `raw = a >> b`, logical, by the whole count (R165, R167). -/
def aluShr (a b : Word) : Executed := arithmetic ((a.toNat >>> b.toNat : Nat) : Int)

/-- ADD (R151). -/
def execAdd (ca cb : Operand) (s : State) : Host.Outcome State Fault Refusal := .next (runTick ca cb aluAdd s)

/-- SUB (R153). -/
def execSub (ca cb : Operand) (s : State) : Host.Outcome State Fault Refusal := .next (runTick ca cb aluSub s)

/-- MUL (R155). -/
def execMul (ca cb : Operand) (s : State) : Host.Outcome State Fault Refusal := .next (runTick ca cb aluMul s)

/-- DIV (R157). -/
def execDiv (ca cb : Operand) (s : State) : Host.Outcome State Fault Refusal := .next (runTick ca cb aluDiv s)

/-- MOD (R159). -/
def execMod (ca cb : Operand) (s : State) : Host.Outcome State Fault Refusal := .next (runTick ca cb aluMod s)

/-- SHL (R163). -/
def execShl (ca cb : Operand) (s : State) : Host.Outcome State Fault Refusal := .next (runTick ca cb aluShl s)

/-- SHR (R165). -/
def execShr (ca cb : Operand) (s : State) : Host.Outcome State Fault Refusal := .next (runTick ca cb aluShr s)

end Sys2Proof.Machine
end

