-- ==== Sys2Proof/Machine/Bitwise.lean ====
section
/-! DEFINITION. AND, BOR and XOR: a result, and O unchanged (spec/43_bitwise.md). -/

namespace Sys2Proof.Machine

/-- The executor of AND (R180). -/
def aluAnd (a b : Word) : Executed := moving (a &&& b)

/-- The executor of BOR (R181). -/
def aluBor (a b : Word) : Executed := moving (a ||| b)

/-- The executor of XOR (R182). -/
def aluXor (a b : Word) : Executed := moving (a ^^^ b)

/-- AND (R180). -/
def execAnd (ca cb : Operand) (s : State) : Host.Outcome State Fault Refusal := .next (runTick ca cb aluAnd s)

/-- BOR (R181). -/
def execBor (ca cb : Operand) (s : State) : Host.Outcome State Fault Refusal := .next (runTick ca cb aluBor s)

/-- XOR (R182). -/
def execXor (ca cb : Operand) (s : State) : Host.Outcome State Fault Refusal := .next (runTick ca cb aluXor s)

end Sys2Proof.Machine
end

