-- ==== Sys2Proof/Machine/Conditional.lean ====
section
/-! DEFINITION. IFE, IFN, IFG and IFB: skip one word unless the condition holds (spec/44_conditional.md). -/

namespace Sys2Proof.Machine

/-- The executor of IFE: skip unless `a == b` (R190). -/
def aluIfe (a b : Word) : Executed := unlessHolds (decide (a = b))

/-- The executor of IFN: skip unless `a != b` (R191). -/
def aluIfn (a b : Word) : Executed := unlessHolds (decide (a ≠ b))

/-- The executor of IFG: skip unless `a > b`, unsigned (R192). -/
def aluIfg (a b : Word) : Executed := unlessHolds (decide (b.toNat < a.toNat))

/-- The executor of IFB: skip unless `(a & b) != 0` (R193). -/
def aluIfb (a b : Word) : Executed := unlessHolds (decide (a &&& b ≠ 0#16))

/-- IFE (R190). -/
def execIfe (ca cb : Operand) (s : State) : Host.Outcome State Fault Refusal := .next (runTick ca cb aluIfe s)

/-- IFN (R191). -/
def execIfn (ca cb : Operand) (s : State) : Host.Outcome State Fault Refusal := .next (runTick ca cb aluIfn s)

/-- IFG (R192). -/
def execIfg (ca cb : Operand) (s : State) : Host.Outcome State Fault Refusal := .next (runTick ca cb aluIfg s)

/-- IFB (R193). -/
def execIfb (ca cb : Operand) (s : State) : Host.Outcome State Fault Refusal := .next (runTick ca cb aluIfb s)

end Sys2Proof.Machine
end

