-- ==== Sys2Proof/Machine/Move.lean ====
section
/-! DEFINITION. NOP (also named RES) and SET (spec/41_nop_set.md). -/

namespace Sys2Proof.Machine

/-- The executor of NOP: nothing; both operands are resolved all the same (R140). -/
def aluNop (_ _ : Word) : Executed := { result := none, skip := false, o := none }

/-- The executor of SET: the value of B (R141). -/
def aluSet (_ b : Word) : Executed := moving b

/-- NOP (R140). -/
def execNop (ca cb : Operand) (s : State) : Host.Outcome State Fault Refusal := .next (runTick ca cb aluNop s)

/-- SET (R141). -/
def execSet (ca cb : Operand) (s : State) : Host.Outcome State Fault Refusal := .next (runTick ca cb aluSet s)

end Sys2Proof.Machine
end

