-- ==== Sys2Proof/Machine/Step.lean ====
section
/-! DEFINITION. One step is one tick (spec/45_tick_sequencer.md R200). -/

namespace Sys2Proof.Machine

/-- A tick: `busy` rises, the word at PC is fetched and decoded, the instruction runs, `busy` falls (R200).  A
`tick()` issued during a tick is no step of the block (R45, R211). -/
def step (s : State) : Host.Outcome State Fault Refusal :=
  if s.busy then .refused .tickInProgress
  else
    match decodeWord s.beginTick.fetch with
    | .error info => raiseFatalDecode info
    | .ok i => endTickOf (exec i s.beginTick)

/-- The state with a table word of `nbits` bits, its words from PC on and every bit above them 0, ready for its
tick: it stands for the host's load and for the end of any tick in progress (log entries 3 and 10). -/
def State.withFetchWord (s : State) (nbits w : Nat) : State :=
  (s.storeWords s.pc (wordsOf Config.longestInstruction (w % 2 ^ nbits))).endTick

end Sys2Proof.Machine
end

