-- ==== Sys2Proof/Machine/HostCalls.lean ====
section
/-! DEFINITION. The block's interface: the operations the host invokes (spec/10_state.md section 5, R33 to R45). -/

namespace Sys2Proof.Machine

/-- What the accessors name: a general register, PC, SP or O (R33, R39). -/
inductive HostRegister where
  | general (r : Reg)
  | pc
  | sp
  | o
deriving DecidableEq, Repr

/-- One transaction of the host (R33).  Its numbers are plain integers, so that one outside [0, 65535] can be
refused (R34). -/
inductive HostCall where
  /-- `new(memory_size)` (R35, R36). -/
  | new (memorySize : Int := 65536)
  /-- `load(words, base)` (R37). -/
  | load (words : List Int) (base : Int := 0)
  /-- `tick()` (R38). -/
  | tick
  /-- `get(r)` (R39). -/
  | get (r : HostRegister)
  /-- `set(r, v)` (R39). -/
  | set (r : HostRegister) (v : Int)
  /-- `getmem(a)` (R39). -/
  | getmem (a : Int)
  /-- `setmem(a, v)` (R39). -/
  | setmem (a v : Int)
deriving DecidableEq, Repr

/-- What a transaction gives: the block after it, and the Word it returns, if it returns one (R45). -/
structure HostReply where
  state : State
  value : Option Word
deriving DecidableEq, Repr

/-- The location an accessor reaches (R39). -/
def hostLoc : HostRegister → Loc
  | .general r => .reg r
  | .pc => .pc
  | .sp => .sp
  | .o => .o

/-- A host number as a Word, if it is one (R34). -/
def asWord (v : Int) : Option Word := if 0 ≤ v ∧ v ≤ 65535 then some (BitVec.ofInt 16 v) else none

/-- The host numbers of a load as Words, or the first that is none (R34). -/
def asWords : List Int → Except Int (List Word)
  | [] => .ok []
  | v :: vs =>
    match asWord v with
    | none => .error v
    | some w =>
      match asWords vs with
      | .error e => .error e
      | .ok ws => .ok (w :: ws)

/-- `new(memory_size)` (R35, R36, U3). -/
def hostNew (size : Int) : Host.Outcome HostReply Fault Refusal :=
  if size = (Config.memWords : Int) then .next { state := State.reset, value := none } else .refused (.memorySize size)

/-- `load(words, base)`: the cells from `base` on, and nothing else (R37); past the end it is refused whole (U1). -/
def hostLoad (words : List Int) (base : Int) (s : State) : Host.Outcome HostReply Fault Refusal :=
  match asWord base, asWords words with
  | none, _ => .refused (.notAWord base)
  | some _, .error v => .refused (.notAWord v)
  | some b, .ok ws =>
    if Config.memWords < b.toNat + ws.length then .refused .loadPastEnd
    else .next { state := s.storeWords b ws, value := none }

/-- `tick()`: one step (R38). -/
def hostTick (s : State) : Host.Outcome HostReply Fault Refusal :=
  match step s with
  | .next t => .next { state := t, value := none }
  | .fault f => .fault f
  | .refused r => .refused r

/-- `get(r)` (R39). -/
def hostGet (r : HostRegister) (s : State) : Host.Outcome HostReply Fault Refusal :=
  .next { state := s, value := some (readLoc (hostLoc r) s) }

/-- `set(r, v)`; a write to O stores as R28 says (R39). -/
def hostSet (r : HostRegister) (v : Int) (s : State) : Host.Outcome HostReply Fault Refusal :=
  match asWord v with
  | none => .refused (.notAWord v)
  | some w => .next { state := writeLoc (hostLoc r) w s, value := none }

/-- `getmem(a)` (R39). -/
def hostGetmem (a : Int) (s : State) : Host.Outcome HostReply Fault Refusal :=
  match asWord a with
  | none => .refused (.notAWord a)
  | some x => .next { state := s, value := some (s.readMem x) }

/-- `setmem(a, v)` (R39). -/
def hostSetmem (a v : Int) (s : State) : Host.Outcome HostReply Fault Refusal :=
  match asWord a, asWord v with
  | none, _ => .refused (.notAWord a)
  | some _, none => .refused (.notAWord v)
  | some x, some w => .next { state := s.writeMem x w, value := none }

/-- An access that may happen only between two ticks (R40). -/
def betweenTicks (s : State) (answer : Host.Outcome HostReply Fault Refusal) : Host.Outcome HostReply Fault Refusal :=
  if s.busy then .refused .accessDuringTick else answer

/-- One transaction of the host with the block (R33, R45). -/
def hostCall (c : HostCall) (s : State) : Host.Outcome HostReply Fault Refusal :=
  match c with
  | .new size => hostNew size
  | .load words base => betweenTicks s (hostLoad words base s)
  | .tick => hostTick s
  | .get r => betweenTicks s (hostGet r s)
  | .set r v => betweenTicks s (hostSet r v s)
  | .getmem a => betweenTicks s (hostGetmem a s)
  | .setmem a v => betweenTicks s (hostSetmem a v s)

end Sys2Proof.Machine
end

