-- ==== Sys2Proof/Safety.lean ====
section
/-! DEFINITION. The words the statements use: what a good state is, and the spec's own tables of what an instruction
touches (spec/30_encoding.md R78, R80; spec/10_state.md R26; spec/00_scope.md R13). -/

namespace Sys2Proof.Machine

/-- No tick is in progress (`idle`, spec/70_reset_and_hazards.md R265). -/
abbrev State.idle (s : State) : Prop := s.busy = false

/-- The invariant of the block between ticks: the memory is in canonical form and no tick is in progress. -/
abbrev State.sound (s : State) : Prop := s.mem.wf ∧ s.idle

/-- Operand A's location: the destination of an instruction that produces a result (R202, R205). -/
def destination (ca : Operand) (s : State) : Loc := (resolve ca s).1

/-- `a`: the value of operand A, read before operand B is resolved (R203). -/
def operandA (ca : Operand) (s : State) : Word := readLoc (resolve ca s).1 (resolve ca s).2

/-- `b`: the value of operand B, resolved and read after operand A (R203). -/
def operandB (ca cb : Operand) (s : State) : Word := operandA cb (resolve ca s).2

/-- An operand's effect on SP: POP adds 1, PUSH subtracts 1, no other operand touches it (R26, R74). -/
def spChange : Operand → Word
  | .reg _ => 0#16
  | .regInd _ => 0#16
  | .regIndOff _ => 0#16
  | .pop => 1#16
  | .peek => 0#16
  | .push => 0xFFFF#16
  | .sp => 0#16
  | .pc => 0#16
  | .o => 0#16
  | .absMem => 0#16
  | .nextWord => 0#16
  | .lit _ => 0#16

/-- SP once both operands are resolved. -/
def spAfter (ca cb : Operand) (s : State) : Word := s.sp + spChange ca + spChange cb

/-- PC at the last word of the instruction: `p + n - 1`, once both operands are resolved (R78, R208). -/
def lastWordAddress (ca cb : Operand) (s : State) : Word := s.pc + BitVec.ofNat 16 (ca.extWords + cb.extWords)

/-- The column "writes A" of the opcode map (R80). -/
def writesA : Instr → Bool
  | .nop _ _ => false
  | .set _ _ => true
  | .add _ _ => true
  | .sub _ _ => true
  | .mul _ _ => true
  | .div _ _ => true
  | .mod _ _ => true
  | .shl _ _ => true
  | .shr _ _ => true
  | .and _ _ => true
  | .bor _ _ => true
  | .xor _ _ => true
  | .ife _ _ => false
  | .ifn _ _ => false
  | .ifg _ _ => false
  | .ifb _ _ => false

/-- The column "O: written" of the opcode map (R80): the arithmetic family. -/
def writesO : Instr → Bool
  | .nop _ _ => false
  | .set _ _ => false
  | .add _ _ => true
  | .sub _ _ => true
  | .mul _ _ => true
  | .div _ _ => true
  | .mod _ _ => true
  | .shl _ _ => true
  | .shr _ _ => true
  | .and _ _ => false
  | .bor _ _ => false
  | .xor _ _ => false
  | .ife _ _ => false
  | .ifn _ _ => false
  | .ifg _ _ => false
  | .ifb _ _ => false

/-- Where an instruction writes a result: operand A's location, if its opcode writes A (R205). -/
def written (i : Instr) (s : State) : Option Loc := if writesA i then some (destination i.opA s) else none

/-- What a location shows once its tick is over, if `v` was written to it: the Word itself, PC one further (R206),
O whether the Word is nonzero (R28), a literal nothing (R108). -/
def shows (l : Loc) (v : Word) (t : State) : Prop :=
  match l with
  | .reg r => t.reg r = v
  | .mem a => t.readMem a = v
  | .sp => t.sp = v
  | .pc => t.pc = v + 1#16
  | .o => t.o = decide (v ≠ 0#16)
  | .lit _ => True

/-- The executor `exec(op, a, b) -> (result, skip, O')` of an instruction (R13). -/
def executor : Instr → Word → Word → Executed
  | .nop _ _ => aluNop
  | .set _ _ => aluSet
  | .add _ _ => aluAdd
  | .sub _ _ => aluSub
  | .mul _ _ => aluMul
  | .div _ _ => aluDiv
  | .mod _ _ => aluMod
  | .shl _ _ => aluShl
  | .shr _ _ => aluShr
  | .and _ _ => aluAnd
  | .bor _ _ => aluBor
  | .xor _ _ => aluXor
  | .ife _ _ => aluIfe
  | .ifn _ _ => aluIfn
  | .ifg _ _ => aluIfg
  | .ifb _ _ => aluIfb

/-- Instruction `i` completes from `s`: it writes `result` to operand A's location and leaves the overflow flag at
`o'` (unless that location is O), does not skip, and leaves everything else as resolving its operands left it:
SP moved by POP and PUSH, PC one past the instruction's last word, every other register, every other cell of memory
and `busy` unchanged (R204 to R208). -/
def writesResult (i : Instr) (s : State) (result : Word) (o' : Bool) : Prop :=
  ∃ t, exec i s = .next t ∧
    shows (destination i.opA s) result t ∧
    (destination i.opA s ≠ .o → t.o = o') ∧
    (destination i.opA s ≠ .pc → t.pc = lastWordAddress i.opA i.opB s + 1#16) ∧
    (destination i.opA s ≠ .sp → t.sp = spAfter i.opA i.opB s) ∧
    (∀ r, destination i.opA s ≠ .reg r → t.reg r = s.reg r) ∧
    (∀ x, destination i.opA s ≠ .mem x → t.readMem x = s.readMem x) ∧
    t.busy = s.busy

/-- Pushing operands one after another with `SET PUSH, c` (R124): the Words pushed and the state after. -/
def pushAll : List Operand → State → Option (List Word × State)
  | [], s => some ([], s)
  | c :: cs, s =>
    match exec (.set .push c) s with
    | .next t => (pushAll cs t).map (fun p => (operandB .push c s :: p.1, p.2))
    | .fault _ => none
    | .refused _ => none

/-- Popping into registers one after another with `SET r, POP` (R124): the Word each register then holds, and the
state after. -/
def popAll : List Reg → State → Option (List Word × State)
  | [], s => some ([], s)
  | r :: rs, s =>
    match exec (.set (.reg r) .pop) s with
    | .next t => (popAll rs t).map (fun p => (t.reg r :: p.1, p.2))
    | .fault _ => none
    | .refused _ => none

end Sys2Proof.Machine
end

