-- ==== Sys2Proof/Certificates/Slice0/Obligations.lean ====
section
/-! DEFINITION. The statements for the provers.  Each docstring cites the rule of spec/ it formalises; `operandA`,
`operandB`, `destination`, `spAfter`, `lastWordAddress`, `shows`, `writesResult` are in Safety.lean. -/

open Sys2Proof Sys2Proof.Machine

/-! ## Encoding -/

/-- Words of the decoding table of spec/95_test_vectors.md section 2 decode to what it reads them as. -/
def Obligations.SpecWordsDecode : Prop :=
  decodeWord 0x0000#16 = .ok (.nop (.reg .a) (.reg .a)) ∧
  decodeWord 0x8C02#16 = .ok (.add (.reg .a) (.lit 3#16)) ∧
  decodeWord 0xA80E#16 = .ok (.ifg (.reg .a) (.lit 10#16)) ∧
  decodeWord 0x5961#16 = .ok (.set (.regIndOff .i) (.regIndOff .i)) ∧
  decodeWord 0x7DE1#16 = .ok (.set .absMem .nextWord) ∧
  decodeWord 0x61C1#16 = .ok (.set .pc .pop) ∧
  decodeWord 0xFFFF#16 = .ok (.ifb (.lit 31#16) (.lit 31#16))

/-- Decode and encode agree: from the words of a well-formed instruction, whatever follows them, the decoder reads
back the instruction, its extension words and what follows (R73, R78). -/
def Obligations.DecodeReadsBackEncode : Prop :=
  ∀ (i : Instr) (ext rest : List Word), i.wellFormed = true → ext.length = i.extWords →
    decode (encode i ext ++ rest) = .ok (i, ext, rest)

/-- R72: every Word has its fields in range and decodes, to a well-formed instruction; the instruction's word is the
Word, and no other well-formed instruction has it. -/
def Obligations.EveryWordIsOneInstruction : Prop :=
  ∀ w : Word, (fieldsOf w).inRange = true ∧
    ∃ i, i.wellFormed = true ∧ decodeWord w = .ok i ∧ encodeWord i = w ∧
      ∀ j, j.wellFormed = true → encodeWord j = w → j = i

/-- R73: the encoding function of in-range fields is `op + 16 * ca + 1024 * cb`, it is the inverse of field
extraction on both sides, and every field triple gives a distinct word; `ADD A, 3` is 0x8C02. -/
def Obligations.FieldsAndWordsInverse : Prop :=
  (∀ w : Word, encodeFields (fieldsOf w) = w) ∧
  (∀ f : Fields, f.inRange = true →
    (encodeFields f).toNat = f.op + 16 * f.a + 1024 * f.b ∧ fieldsOf (encodeFields f) = f) ∧
  (∀ f g : Fields, f.inRange = true → g.inRange = true → encodeFields f = encodeFields g → f = g) ∧
  (Instr.add (.reg .a) (.lit 3#16)).fields = ⟨2, 0, 35⟩ ∧ encodeWord (.add (.reg .a) (.lit 3#16)) = 35842#16

/-- R78: an instruction is 1, 2 or 3 words long, one word more for each operand whose value code is 16 to 23, 30 or
31. -/
def Obligations.InstructionLengthByValueCodes : Prop :=
  ∀ i : Instr,
    i.length = 1 + (if (16 ≤ i.opA.code ∧ i.opA.code ≤ 23) ∨ i.opA.code = 30 ∨ i.opA.code = 31 then 1 else 0)
      + (if (16 ≤ i.opB.code ∧ i.opB.code ≤ 23) ∨ i.opB.code = 30 ∨ i.opB.code = 31 then 1 else 0) ∧
    1 ≤ i.length ∧ i.length ≤ 3

/-- R230: fields outside their defined range are rejected by the number observed.  That the value codes are looked
at before the opcode is the model's choice (log entry 7). -/
def Obligations.OutOfRangeFieldsRejected : Prop :=
  ∀ f : Fields,
    (64 ≤ f.a → decodeFields f = .error (.valueCode f.a)) ∧
    (f.a < 64 → 64 ≤ f.b → decodeFields f = .error (.valueCode f.b)) ∧
    (f.a < 64 → f.b < 64 → 16 ≤ f.op → decodeFields f = .error (.opcode f.op))

/-- R74, R20: the operand of each of the 64 value codes, in order from code 0, with the registers in their order A, B,
C, X, Y, Z, I, J, both ways; and every instruction's word is made of its opcode and those codes (R73). -/
def Obligations.ValueCodeMap : Prop :=
  let registers : List Reg := [.a, .b, .c, .x, .y, .z, .i, .j]
  let operands : List Operand :=
    registers.map .reg ++ registers.map .regInd ++ registers.map .regIndOff ++
      [.pop, .peek, .push, .sp, .pc, .o, .absMem, .nextWord] ++
      (List.range 32).map (fun n => .lit (BitVec.ofNat 16 n))
  operands.map Operand.code = List.range 64 ∧
  (List.range 64).map decodeOperand = operands.map .ok ∧
  ∀ i : Instr, (encodeWord i).toNat = i.opcode + 16 * i.opA.code + 1024 * i.opB.code

/-! ## The step -/

/-- R200: between ticks, the step is the meaning of the instruction whose word stands at PC, in that very state:
fetching and decoding change nothing, and `busy` is 1 only inside the tick. -/
def Obligations.StepRunsDecodedInstruction : Prop :=
  ∀ (s : State) (i : Instr), s.idle → decodeWord (s.readMem s.pc) = .ok i → step s = exec i s

/-- R231: the step never takes the fault of FatalDecode, in any state. -/
def Obligations.NoStepFaults : Prop :=
  ∀ (s : State) (f : Fault), step s ≠ .fault f

/-- R38, R232: a tick issued between ticks always succeeds, and ends between ticks; the host's `tick()` is that step
and returns no value (R33, R45). -/
def Obligations.IdleStepCompletes : Prop :=
  ∀ s : State, s.idle → ∃ t, step s = .next t ∧ t.idle ∧ hostCall .tick s = .next { state := t, value := none }

/-- R45, R211: a tick issued during a tick is no step of the block.  That the model says so by a refusal is its
choice (log entry 4). -/
def Obligations.TickDuringTickRefused : Prop :=
  ∀ s : State, s.busy = true → step s = .refused .tickInProgress

/-- The invariant every step keeps: canonical memory, and no tick in progress between ticks.  The canonical form is
the model's choice (log entry 1). -/
def Obligations.StepKeepsSound : Prop :=
  ∀ s t : State, s.sound → step s = .next t → t.sound

/-- The reset state meets the invariant: no tick is in progress (R44), and its memory is in the canonical form, which
is the model's choice (log entry 1). -/
def Obligations.ResetIsSound : Prop := State.reset.sound

/-- R44: the reset value of every piece of state.  No per-tick latch is held: the state has none (log entry 5). -/
def Obligations.ResetValues : Prop :=
  (∀ r, State.reset.reg r = 0#16) ∧ State.reset.pc = 0#16 ∧ State.reset.sp = 0#16 ∧ State.reset.o = false ∧
    (∀ a, State.reset.readMem a = 0#16) ∧ State.reset.busy = false

/-- R140, R264: a zeroed memory runs as an endless sequence of one-word NOPs, PC rising by one per tick and wrapping
at 65536: after any number of ticks from reset only PC has changed. -/
def Obligations.ZeroedMemoryRunsAsNops : Prop :=
  ∀ k : Nat, Host.Core.run core k State.reset = .next (State.reset.setPc (BitVec.ofNat 16 k))

/-! ## The 16 instructions, for every operand form -/

/-- R140: NOP resolves its operands and does nothing else. -/
def Obligations.NopOnlyResolves : Prop :=
  ∀ (ca cb : Operand) (s : State),
    (encodeWord (.nop ca cb)).toNat % 16 = 0 ∧
    exec (.nop ca cb) s = .next { s with pc := lastWordAddress ca cb s + 1#16, sp := spAfter ca cb s }

/-- R141: SET copies operand B to operand A's location; O is unchanged. -/
def Obligations.SetCopiesOperandB : Prop :=
  ∀ (ca cb : Operand) (s : State),
    (encodeWord (.set ca cb)).toNat % 16 = 1 ∧
    writesResult (.set ca cb) s (operandB ca cb s) s.o

/-- R151: ADD writes the sum modulo 65536, and O is whether the sum is above 65535. -/
def Obligations.AddResult : Prop :=
  ∀ (ca cb : Operand) (s : State),
    (encodeWord (.add ca cb)).toNat % 16 = 2 ∧
    writesResult (.add ca cb) s (operandA ca s + operandB ca cb s)
      (decide (65535 < (operandA ca s).toNat + (operandB ca cb s).toNat))

/-- R153: SUB writes the difference modulo 65536, and O is whether B is above A. -/
def Obligations.SubResult : Prop :=
  ∀ (ca cb : Operand) (s : State),
    (encodeWord (.sub ca cb)).toNat % 16 = 3 ∧
    writesResult (.sub ca cb) s (operandA ca s - operandB ca cb s)
      (decide ((operandA ca s).toNat < (operandB ca cb s).toNat))

/-- R155: MUL writes the low 16 bits of the product, and O is whether the product is above 65535. -/
def Obligations.MulResult : Prop :=
  ∀ (ca cb : Operand) (s : State),
    (encodeWord (.mul ca cb)).toNat % 16 = 4 ∧
    writesResult (.mul ca cb) s (operandA ca s * operandB ca cb s)
      (decide (65535 < (operandA ca s).toNat * (operandB ca cb s).toNat))

/-- R157: DIV writes the unsigned quotient, 0 for a zero divisor, and O is whether the divisor is zero. -/
def Obligations.DivResult : Prop :=
  ∀ (ca cb : Operand) (s : State),
    (encodeWord (.div ca cb)).toNat % 16 = 5 ∧
    writesResult (.div ca cb) s
      (if operandB ca cb s = 0#16 then 0#16
       else BitVec.ofNat 16 ((operandA ca s).toNat / (operandB ca cb s).toNat))
      (decide (operandB ca cb s = 0#16))

/-- R159: MOD writes the unsigned remainder, 0 for a zero divisor, and clears O. -/
def Obligations.ModResult : Prop :=
  ∀ (ca cb : Operand) (s : State),
    (encodeWord (.mod ca cb)).toNat % 16 = 6 ∧
    writesResult (.mod ca cb) s
      (if operandB ca cb s = 0#16 then 0#16
       else BitVec.ofNat 16 ((operandA ca s).toNat % (operandB ca cb s).toNat))
      false

/-- R163: SHL writes `a * 2^b` modulo 65536 and O is whether `a * 2^b` is above 65535; the flag's finite form by the
shift count agrees with it. -/
def Obligations.ShlResult : Prop :=
  ∀ (ca cb : Operand) (s : State),
    (encodeWord (.shl ca cb)).toNat % 16 = 7 ∧
    writesResult (.shl ca cb) s (BitVec.ofNat 16 ((operandA ca s).toNat * 2 ^ (operandB ca cb s).toNat))
      (decide (65535 < (operandA ca s).toNat * 2 ^ (operandB ca cb s).toNat)) ∧
    decide (65535 < (operandA ca s).toNat * 2 ^ (operandB ca cb s).toNat) =
      (if (operandB ca cb s).toNat = 0 then false
       else if (operandB ca cb s).toNat ≤ 15 then decide ((operandA ca s) >>> (16 - (operandB ca cb s).toNat) ≠ 0#16)
       else decide (operandA ca s ≠ 0#16))

/-- R165: SHR writes `floor(a / 2^b)`, a logical shift by the whole count, and clears O. -/
def Obligations.ShrResult : Prop :=
  ∀ (ca cb : Operand) (s : State),
    (encodeWord (.shr ca cb)).toNat % 16 = 8 ∧
    writesResult (.shr ca cb) s (BitVec.ofNat 16 ((operandA ca s).toNat / 2 ^ (operandB ca cb s).toNat)) false

/-- R180: AND writes, bit by bit, the conjunction of its operands; O is unchanged. -/
def Obligations.AndResult : Prop :=
  ∀ (ca cb : Operand) (s : State),
    (encodeWord (.and ca cb)).toNat % 16 = 9 ∧
    ∃ v : Word, (∀ k < 16, v.getLsbD k = ((operandA ca s).getLsbD k && (operandB ca cb s).getLsbD k)) ∧
      writesResult (.and ca cb) s v s.o

/-- R181: BOR writes, bit by bit, the inclusive disjunction of its operands; O is unchanged. -/
def Obligations.BorResult : Prop :=
  ∀ (ca cb : Operand) (s : State),
    (encodeWord (.bor ca cb)).toNat % 16 = 10 ∧
    ∃ v : Word, (∀ k < 16, v.getLsbD k = ((operandA ca s).getLsbD k || (operandB ca cb s).getLsbD k)) ∧
      writesResult (.bor ca cb) s v s.o

/-- R182: XOR writes, bit by bit, the exclusive disjunction of its operands; O is unchanged. -/
def Obligations.XorResult : Prop :=
  ∀ (ca cb : Operand) (s : State),
    (encodeWord (.xor ca cb)).toNat % 16 = 11 ∧
    ∃ v : Word, (∀ k < 16, v.getLsbD k = ((operandA ca s).getLsbD k).xor ((operandB ca cb s).getLsbD k)) ∧
      writesResult (.xor ca cb) s v s.o

/-- R190: IFE skips one word unless its operands are equal, and changes only PC and, by resolution, SP. -/
def Obligations.IfeSkipsUnlessEqual : Prop :=
  ∀ (ca cb : Operand) (s : State),
    (encodeWord (.ife ca cb)).toNat % 16 = 12 ∧
    exec (.ife ca cb) s = .next { s with
      pc := lastWordAddress ca cb s + (if (operandA ca s).toNat = (operandB ca cb s).toNat then 1#16 else 2#16)
      sp := spAfter ca cb s }

/-- R191: IFN skips one word unless its operands differ, and changes only PC and, by resolution, SP. -/
def Obligations.IfnSkipsUnlessDifferent : Prop :=
  ∀ (ca cb : Operand) (s : State),
    (encodeWord (.ifn ca cb)).toNat % 16 = 13 ∧
    exec (.ifn ca cb) s = .next { s with
      pc := lastWordAddress ca cb s + (if (operandA ca s).toNat = (operandB ca cb s).toNat then 2#16 else 1#16)
      sp := spAfter ca cb s }

/-- R192: IFG skips one word unless A is above B, unsigned, and changes only PC and, by resolution, SP. -/
def Obligations.IfgSkipsUnlessAbove : Prop :=
  ∀ (ca cb : Operand) (s : State),
    (encodeWord (.ifg ca cb)).toNat % 16 = 14 ∧
    exec (.ifg ca cb) s = .next { s with
      pc := lastWordAddress ca cb s + (if (operandA ca s).toNat ≤ (operandB ca cb s).toNat then 2#16 else 1#16)
      sp := spAfter ca cb s }

/-- R193: IFB skips one word unless some bit is set in both operands, and changes only PC and, by resolution, SP. -/
def Obligations.IfbSkipsUnlessCommonBit : Prop :=
  ∀ (ca cb : Operand) (s : State),
    (encodeWord (.ifb ca cb)).toNat % 16 = 15 ∧
    ((∃ k < 16, (operandA ca s).getLsbD k = true ∧ (operandB ca cb s).getLsbD k = true) →
      exec (.ifb ca cb) s =
        .next { s with pc := lastWordAddress ca cb s + 1#16, sp := spAfter ca cb s }) ∧
    ((¬ ∃ k < 16, (operandA ca s).getLsbD k = true ∧ (operandB ca cb s).getLsbD k = true) →
      exec (.ifb ca cb) s =
        .next { s with pc := lastWordAddress ca cb s + 2#16, sp := spAfter ca cb s })

/-! ## Rules over all instructions -/

/-- R208: the next fetch address of an instruction of length `n` at `p`: `p + n` if it neither skips nor writes PC,
`p + n + 1` if it skips, `T + 1` if it writes `T` to PC. -/
def Obligations.NextFetchAddress : Prop :=
  ∀ (i : Instr) (s : State), ∃ t, exec i s = .next t ∧
    ((executor i (operandA i.opA s) (operandB i.opA i.opB s)).skip = false → written i s ≠ some .pc →
      t.pc = s.pc + BitVec.ofNat 16 i.length) ∧
    ((executor i (operandA i.opA s) (operandB i.opA i.opB s)).skip = true →
      t.pc = s.pc + BitVec.ofNat 16 i.length + 1#16) ∧
    (∀ T, written i s = some .pc → (executor i (operandA i.opA s) (operandB i.opA i.opB s)).result = some T →
      t.pc = T + 1#16)

/-- R21, R30, R205: a tick changes at most operand A's location, and that only for an opcode that writes A: every
other general register and every other cell of memory is as before; operand B's location is never written. -/
def Obligations.StepChangesOnlyTheDestination : Prop :=
  ∀ (s t : State) (i : Instr), s.idle → decodeWord (s.readMem s.pc) = .ok i → step s = .next t →
    (∀ r, written i s ≠ some (.reg r) → t.reg r = s.reg r) ∧
    (∀ x, written i s ≠ some (.mem x) → t.readMem x = s.readMem x)

/-- R27, R29: no instruction reads O unless an operand names it: started with O at any value it does the same, and O
itself ends as written (the arithmetic family) or as it was. -/
def Obligations.OverflowReadOnlyWhenNamed : Prop :=
  ∀ (i : Instr) (s : State) (b : Bool), i.opA ≠ .o → i.opB ≠ .o →
    ∃ t, exec i s = .next t ∧ exec i (s.setO b) = .next (if writesO i then t else t.setO b)

/-- R77: operand A's extension word is at `p + 1`; operand B's is at `p + 2` if A has one and at `p + 1` if A has
none. -/
def Obligations.ExtensionWordAddresses : Prop :=
  ∀ (ca : Operand) (r : Reg) (s : State),
    (destination .nextWord s = .lit (s.readMem (s.pc + 1#16)) ∧
      destination .absMem s = .mem (s.readMem (s.pc + 1#16)) ∧
      destination (.regIndOff r) s = .mem (s.reg r + s.readMem (s.pc + 1#16))) ∧
    (destination .nextWord (resolve ca s).2 =
        .lit (s.readMem (if ca.extWords = 1 then s.pc + 2#16 else s.pc + 1#16)) ∧
      destination .absMem (resolve ca s).2 =
        .mem (s.readMem (if ca.extWords = 1 then s.pc + 2#16 else s.pc + 1#16)) ∧
      destination (.regIndOff r) (resolve ca s).2 =
        .mem (s.reg r + s.readMem (if ca.extWords = 1 then s.pc + 2#16 else s.pc + 1#16)))

/-- R101 to R115: the location an operand of each class names, which is where a result is written (R205).  PEEK names the
cell at SP, POP the one at the old SP, PUSH the one below it (R110 to R112). -/
def Obligations.OperandLocations : Prop :=
  ∀ (r : Reg) (v : Word) (s : State),
    destination (.reg r) s = .reg r ∧
    destination (.regInd r) s = .mem (s.reg r) ∧
    destination (.regIndOff r) s = .mem (s.reg r + s.readMem (s.pc + 1#16)) ∧
    destination .pop s = .mem s.sp ∧
    destination .peek s = .mem s.sp ∧
    destination .push s = .mem (s.sp - 1#16) ∧
    destination .sp s = .sp ∧
    destination .pc s = .pc ∧
    destination .o s = .o ∧
    destination .absMem s = .mem (s.readMem (s.pc + 1#16)) ∧
    destination .nextWord s = .lit (s.readMem (s.pc + 1#16)) ∧
    destination (.lit v) s = .lit v

/-- R111: a write through PEEK sets the cell at SP and leaves SP alone: `SET PEEK, v` and `ADD PEEK, v` for a small
literal change that cell, PC and, for `ADD`, O, and nothing else. -/
def Obligations.PeekDestinationWritesTheTop : Prop :=
  ∀ (v : Word) (s : State),
    exec (.set .peek (.lit v)) s = .next (({ s with pc := s.pc + 1#16 }).writeMem s.sp v) ∧
    exec (.add .peek (.lit v)) s = .next (({ s with
      pc := s.pc + 1#16
      o := decide (65535 < (s.readMem s.sp).toNat + v.toNat) }).writeMem s.sp (s.readMem s.sp + v))

/-- R101 to R115, R120: what reading an operand of each class gives, literals (R106, R107) and O as a Word (R115)
among them.  POP and PEEK read the old top, PUSH the cell below it (R110 to R112). -/
def Obligations.OperandReads : Prop :=
  ∀ (r : Reg) (v : Word) (s : State),
    operandA (.reg r) s = s.reg r ∧
    operandA (.regInd r) s = s.readMem (s.reg r) ∧
    operandA (.regIndOff r) s = s.readMem (s.reg r + s.readMem (s.pc + 1#16)) ∧
    operandA .pop s = s.readMem s.sp ∧
    operandA .peek s = s.readMem s.sp ∧
    operandA .push s = s.readMem (s.sp - 1#16) ∧
    operandA .sp s = s.sp ∧
    operandA .pc s = s.pc ∧
    operandA .o s = (if s.o then 1#16 else 0#16) ∧
    operandA .absMem s = s.readMem (s.readMem (s.pc + 1#16)) ∧
    operandA .nextWord s = s.readMem (s.pc + 1#16) ∧
    operandA (.lit v) s = v

/-- R100 to R102, R110 to R112: operand B is read by the same rules in the state operand A's resolution leaves, which
differs from the first in PC, by A's extension word, and in SP, by A's POP or PUSH, and in nothing else. -/
def Obligations.OperandBReadsAfterOperandA : Prop :=
  ∀ (ca cb : Operand) (s : State),
    operandB ca cb s = operandA cb { s with
      pc := if ca.extWords = 1 then s.pc + 1#16 else s.pc
      sp := if ca = .pop then s.sp + 1#16 else if ca = .push then s.sp - 1#16 else s.sp }

/-- R272: reading PC gives the address of the instruction being executed, or one more if operand A consumed an
extension word. -/
def Obligations.PcOperandReads : Prop :=
  ∀ (ca : Operand) (s : State), operandA .pc s = s.pc ∧
    operandB ca .pc s = (if ca.extWords = 1 then s.pc + 1#16 else s.pc)

/-- R122, (a) to (f): operand B's resolution sees operand A's side effects, and A's value is read before B is
resolved.  In (f) the cell is rewritten with its own value, so canonical memory is the same list. -/
def Obligations.MixedStackOperands : Prop :=
  ∀ s : State,
    exec (.set .sp .pop) s = .next { s with sp := s.readMem s.sp, pc := s.pc + 1#16 } ∧
    exec (.add .sp .pop) s = .next { s with
      sp := s.sp + s.readMem s.sp
      o := decide (65535 < s.sp.toNat + (s.readMem s.sp).toNat)
      pc := s.pc + 1#16 } ∧
    exec (.set .push .push) s = .next
      (({ s with sp := s.sp - 2#16, pc := s.pc + 1#16 }).writeMem (s.sp - 1#16) (s.readMem (s.sp - 2#16))) ∧
    exec (.set .pop .pop) s = .next
      (({ s with sp := s.sp + 2#16, pc := s.pc + 1#16 }).writeMem s.sp (s.readMem (s.sp + 1#16))) ∧
    (∀ r q : Reg, exec (.set (.regIndOff r) (.regIndOff q)) s = .next
      (({ s with pc := s.pc + 3#16 }).writeMem (s.reg r + s.readMem (s.pc + 1#16))
        (s.readMem (s.reg q + s.readMem (s.pc + 2#16))))) ∧
    (s.mem.wf → exec (.set .peek .pop) s = .next { s with sp := s.sp + 1#16, pc := s.pc + 1#16 })

/-- R123: the same register, or the same cell through it, as both operands is read once for each with the same
value; `ADD` doubles it, `XOR` and `SUB` clear it.  The cell is the one the register addresses (R103): `SET` between
two register-indirect operands moves one such cell to another and changes only PC beside it. -/
def Obligations.SameRegisterTwice : Prop :=
  ∀ (r : Reg) (s : State),
    operandB (.reg r) (.reg r) s = operandA (.reg r) s ∧
    operandB (.regInd r) (.regInd r) s = operandA (.regInd r) s ∧
    (∀ q : Reg, exec (.set (.regInd r) (.regInd q)) s =
      .next (({ s with pc := s.pc + 1#16 }).writeMem (s.reg r) (s.readMem (s.reg q)))) ∧
    exec (.add (.reg r) (.reg r)) s =
      .next (((s.setReg r (2#16 * s.reg r)).setO (decide (32768 ≤ (s.reg r).toNat))).advancePc) ∧
    exec (.xor (.reg r) (.reg r)) s = .next ((s.setReg r 0#16).advancePc) ∧
    exec (.sub (.reg r) (.reg r)) s = .next (((s.setReg r 0#16).setO false).advancePc)

/-- R169: the executor writes O before the write-back.  (a) An arithmetic instruction whose destination is a literal
changes O, and beside it only PC and SP by resolution; (b) `ADD O, 1` with O = 1 ends with O = 1; (c) `ADD PC, 2`
continues three words on. -/
def Obligations.ArithmeticDestinations : Prop :=
  (∀ (i : Instr) (s : State) (v : Word), writesO i = true → destination i.opA s = .lit v →
    ∃ b, (executor i (operandA i.opA s) (operandB i.opA i.opB s)).o = some b ∧
      exec i s = .next { s with
        o := b, pc := lastWordAddress i.opA i.opB s + 1#16, sp := spAfter i.opA i.opB s }) ∧
  (∀ s : State, s.o = true → exec (.add .o (.lit 1#16)) s = .next { s with o := true, pc := s.pc + 1#16 }) ∧
  (∀ s : State, exec (.add .pc (.lit 2#16)) s =
    .next { s with pc := s.pc + 3#16, o := decide (65535 < s.pc.toNat + 2) })

/-- R161: the division law, on what the executors of DIV and MOD hand to the tick. -/
def Obligations.DivisionLaw : Prop :=
  ∀ (ca cb : Operand) (a b : Word),
    (b ≠ 0#16 → ∃ q r, executor (.div ca cb) a b = ⟨some q, false, some false⟩ ∧
      executor (.mod ca cb) a b = ⟨some r, false, some false⟩ ∧
      a.toNat = b.toNat * q.toNat + r.toNat ∧ r.toNat < b.toNat) ∧
    (b = 0#16 → executor (.div ca cb) a b = ⟨some 0#16, false, some true⟩ ∧
      executor (.mod ca cb) a b = ⟨some 0#16, false, some false⟩)

/-- R167: the shift count is not reduced: a count of 16 or more shifts every bit out, and SHL then sets O exactly
when its operand is not 0. -/
def Obligations.LargeShiftCounts : Prop :=
  ∀ (ca cb : Operand) (s : State), 16 ≤ (operandB ca cb s).toNat →
    writesResult (.shl ca cb) s 0#16 (decide (operandA ca s ≠ 0#16)) ∧ writesResult (.shr ca cb) s 0#16 false

/-- R62: a write-back to the cell the next tick fetches from is what that tick fetches. -/
def Obligations.NextFetchSeesWriteBack : Prop :=
  ∀ (i : Instr) (s t : State) (v : Word), exec i s = .next t → written i s = some (.mem t.pc) →
    (executor i (operandA i.opA s) (operandB i.opA i.opB s)).result = some v → t.fetch = v

/-- R124: N pushes and then N pops into registers give the pushed Words in reverse order and SP back, for any
operands pushed that do not themselves move SP, as long as the stack does not come round on itself (N at most
65536). -/
def Obligations.StackLifoLaw : Prop :=
  ∀ (cs : List Operand) (rs : List Reg) (s : State), rs.length = cs.length → cs.length ≤ 65536 →
    (∀ c ∈ cs, c ≠ .pop ∧ c ≠ .push) →
    ∃ vs t u, pushAll cs s = some (vs, t) ∧ popAll rs t = some (vs.reverse, u) ∧ vs.length = cs.length ∧ u.sp = s.sp

/-! ## Memory and the host's interface -/

/-- Canonical memories that read alike are the same list, so equal memories are equal data (log entry 1). -/
def Obligations.CanonicalMemoriesReadingAlikeAreEqual : Prop :=
  ∀ s t : State, s.mem.wf → t.mem.wf → (∀ a : Word, s.readMem a = t.readMem a) → s.mem = t.mem

/-- R35, R36: `new` gives the reset state whatever went before; a memory size other than 65536 is refused. -/
def Obligations.NewGivesReset : Prop :=
  ∀ (s : State) (size : Int),
    hostCall .new s = .next { state := State.reset, value := none } ∧
    (size ≠ 65536 → hostCall (.new size) s = .refused (.memorySize size))

/-- R37: a load within bounds writes its Words to the cells from `base` on and changes nothing else; one that runs
past the end is refused. -/
def Obligations.LoadWritesItsCells : Prop :=
  ∀ (ws : List Word) (base : Word) (s : State), s.idle →
    (base.toNat + ws.length ≤ 65536 →
      ∃ t, hostCall (.load (ws.map (fun w => (w.toNat : Int))) (base.toNat : Int)) s =
          .next { state := t, value := none } ∧
        (∀ (k : Nat) (h : k < ws.length), t.readMem (base + BitVec.ofNat 16 k) = ws[k]) ∧
        (∀ x : Word, x.toNat < base.toNat ∨ base.toNat + ws.length ≤ x.toNat → t.readMem x = s.readMem x) ∧
        t.regs = s.regs ∧ t.pc = s.pc ∧ t.sp = s.sp ∧ t.o = s.o ∧ t.busy = s.busy) ∧
    (65536 < base.toNat + ws.length →
      hostCall (.load (ws.map (fun w => (w.toNat : Int))) (base.toNat : Int)) s = .refused .loadPastEnd)

/-- R39: `get` returns the Word held, `set` stores the Word given (O: whether it is nonzero), and neither has a side
effect on any other state; the same for memory cells. -/
def Obligations.AccessorsReadAndWrite : Prop :=
  ∀ (s : State) (v x : Word) (r : Reg), s.idle →
    (hostCall (.get (.general r)) s = .next { state := s, value := some (s.reg r) } ∧
      hostCall (.get .pc) s = .next { state := s, value := some s.pc } ∧
      hostCall (.get .sp) s = .next { state := s, value := some s.sp } ∧
      hostCall (.get .o) s = .next { state := s, value := some (if s.o then 1#16 else 0#16) } ∧
      hostCall (.getmem (x.toNat : Int)) s = .next { state := s, value := some (s.readMem x) }) ∧
    (hostCall (.set (.general r) (v.toNat : Int)) s =
        .next { state := { s with regs := s.regs.set r v }, value := none } ∧
      hostCall (.set .pc (v.toNat : Int)) s = .next { state := { s with pc := v }, value := none } ∧
      hostCall (.set .sp (v.toNat : Int)) s = .next { state := { s with sp := v }, value := none } ∧
      hostCall (.set .o (v.toNat : Int)) s =
        .next { state := { s with o := decide (v ≠ 0#16) }, value := none } ∧
      ∃ t, hostCall (.setmem (x.toNat : Int) (v.toNat : Int)) s = .next { state := t, value := none } ∧
        t.readMem x = v ∧ (∀ y, y ≠ x → t.readMem y = s.readMem y) ∧ t = { s with mem := t.mem })

/-- R34, R40, R45: what the interface refuses: every access while a tick is in progress, and between ticks a number
outside [0, 65535]: a value, an address, a base, or a Word of a load (the first such, where the base is a Word).  The
names of the refusals and their order are the model's (log entry 8). -/
def Obligations.InterfaceRefusals : Prop :=
  ∀ (s : State) (r : HostRegister) (ws rest : List Int) (a v : Int),
    (s.busy = true →
      hostCall (.load ws a) s = .refused .accessDuringTick ∧ hostCall (.get r) s = .refused .accessDuringTick ∧
      hostCall (.set r v) s = .refused .accessDuringTick ∧ hostCall (.getmem a) s = .refused .accessDuringTick ∧
      hostCall (.setmem a v) s = .refused .accessDuringTick ∧ hostCall .tick s = .refused .tickInProgress) ∧
    (s.busy = false → v < 0 ∨ 65535 < v →
      hostCall (.set r v) s = .refused (.notAWord v) ∧ hostCall (.getmem v) s = .refused (.notAWord v) ∧
      hostCall (.setmem v a) s = .refused (.notAWord v) ∧ hostCall (.load ws v) s = .refused (.notAWord v)) ∧
    (s.busy = false → 0 ≤ a ∧ a ≤ 65535 → v < 0 ∨ 65535 < v →
      hostCall (.setmem a v) s = .refused (.notAWord v) ∧
      ((∀ w ∈ ws, 0 ≤ w ∧ w ≤ 65535) → hostCall (.load (ws ++ v :: rest) a) s = .refused (.notAWord v)))

/-- Every transaction of the host keeps the invariant of the block: no tick in progress (R40), and memory in the
canonical form, which is the model's choice (log entry 1). -/
def Obligations.HostCallsKeepSound : Prop :=
  ∀ (c : HostCall) (s : State) (r : HostReply), s.sound → hostCall c s = .next r → r.state.sound

/-- A table word placed for the very next tick is run by it: the model's own way to place a word, standing for the
host's load (R262, log entry 10). -/
def Obligations.PlacedWordRunsNext : Prop :=
  ∀ (s : State) (w : Word), ∃ i, decodeTableWord 16 w.toNat = some i ∧
    step (s.withFetchWord 16 w.toNat) = exec i (s.withFetchWord 16 w.toNat)
end

