-- ==== Sys2Proof/Laws/State.lean ====
section
/-! SUPPORT. Each field of the state after each named update, and the register file's laws, so that no proof unfolds
a record update. -/

namespace Sys2Proof.Machine

@[simp] theorem State.setReg_regs (s : State) (r : Reg) (v : Word) : (s.setReg r v).regs = s.regs.set r v := rfl
@[simp] theorem State.setReg_pc (s : State) (r : Reg) (v : Word) : (s.setReg r v).pc = s.pc := rfl
@[simp] theorem State.setReg_sp (s : State) (r : Reg) (v : Word) : (s.setReg r v).sp = s.sp := rfl
@[simp] theorem State.setReg_o (s : State) (r : Reg) (v : Word) : (s.setReg r v).o = s.o := rfl
@[simp] theorem State.setReg_mem (s : State) (r : Reg) (v : Word) : (s.setReg r v).mem = s.mem := rfl
@[simp] theorem State.setReg_busy (s : State) (r : Reg) (v : Word) : (s.setReg r v).busy = s.busy := rfl
@[simp] theorem State.setReg_readMem (s : State) (r : Reg) (v : Word) (x : Word) : (s.setReg r v).readMem x = s.readMem x := rfl

@[simp] theorem State.setPc_regs (s : State) (v : Word) : (s.setPc v).regs = s.regs := rfl
@[simp] theorem State.setPc_pc (s : State) (v : Word) : (s.setPc v).pc = v := rfl
@[simp] theorem State.setPc_sp (s : State) (v : Word) : (s.setPc v).sp = s.sp := rfl
@[simp] theorem State.setPc_o (s : State) (v : Word) : (s.setPc v).o = s.o := rfl
@[simp] theorem State.setPc_mem (s : State) (v : Word) : (s.setPc v).mem = s.mem := rfl
@[simp] theorem State.setPc_busy (s : State) (v : Word) : (s.setPc v).busy = s.busy := rfl
@[simp] theorem State.setPc_reg (s : State) (v : Word) (q : Reg) : (s.setPc v).reg q = s.reg q := rfl
@[simp] theorem State.setPc_readMem (s : State) (v : Word) (x : Word) : (s.setPc v).readMem x = s.readMem x := rfl

@[simp] theorem State.setSp_regs (s : State) (v : Word) : (s.setSp v).regs = s.regs := rfl
@[simp] theorem State.setSp_pc (s : State) (v : Word) : (s.setSp v).pc = s.pc := rfl
@[simp] theorem State.setSp_sp (s : State) (v : Word) : (s.setSp v).sp = v := rfl
@[simp] theorem State.setSp_o (s : State) (v : Word) : (s.setSp v).o = s.o := rfl
@[simp] theorem State.setSp_mem (s : State) (v : Word) : (s.setSp v).mem = s.mem := rfl
@[simp] theorem State.setSp_busy (s : State) (v : Word) : (s.setSp v).busy = s.busy := rfl
@[simp] theorem State.setSp_reg (s : State) (v : Word) (q : Reg) : (s.setSp v).reg q = s.reg q := rfl
@[simp] theorem State.setSp_readMem (s : State) (v : Word) (x : Word) : (s.setSp v).readMem x = s.readMem x := rfl

@[simp] theorem State.setO_regs (s : State) (b : Bool) : (s.setO b).regs = s.regs := rfl
@[simp] theorem State.setO_pc (s : State) (b : Bool) : (s.setO b).pc = s.pc := rfl
@[simp] theorem State.setO_sp (s : State) (b : Bool) : (s.setO b).sp = s.sp := rfl
@[simp] theorem State.setO_o (s : State) (b : Bool) : (s.setO b).o = b := rfl
@[simp] theorem State.setO_mem (s : State) (b : Bool) : (s.setO b).mem = s.mem := rfl
@[simp] theorem State.setO_busy (s : State) (b : Bool) : (s.setO b).busy = s.busy := rfl
@[simp] theorem State.setO_reg (s : State) (b : Bool) (q : Reg) : (s.setO b).reg q = s.reg q := rfl
@[simp] theorem State.setO_readMem (s : State) (b : Bool) (x : Word) : (s.setO b).readMem x = s.readMem x := rfl

@[simp] theorem State.setBusy_regs (s : State) (b : Bool) : (s.setBusy b).regs = s.regs := rfl
@[simp] theorem State.setBusy_pc (s : State) (b : Bool) : (s.setBusy b).pc = s.pc := rfl
@[simp] theorem State.setBusy_sp (s : State) (b : Bool) : (s.setBusy b).sp = s.sp := rfl
@[simp] theorem State.setBusy_o (s : State) (b : Bool) : (s.setBusy b).o = s.o := rfl
@[simp] theorem State.setBusy_mem (s : State) (b : Bool) : (s.setBusy b).mem = s.mem := rfl
@[simp] theorem State.setBusy_busy (s : State) (b : Bool) : (s.setBusy b).busy = b := rfl
@[simp] theorem State.setBusy_reg (s : State) (b : Bool) (q : Reg) : (s.setBusy b).reg q = s.reg q := rfl
@[simp] theorem State.setBusy_readMem (s : State) (b : Bool) (x : Word) : (s.setBusy b).readMem x = s.readMem x := rfl

@[simp] theorem State.writeMem_regs (s : State) (a v : Word) : (s.writeMem a v).regs = s.regs := rfl
@[simp] theorem State.writeMem_pc (s : State) (a v : Word) : (s.writeMem a v).pc = s.pc := rfl
@[simp] theorem State.writeMem_sp (s : State) (a v : Word) : (s.writeMem a v).sp = s.sp := rfl
@[simp] theorem State.writeMem_o (s : State) (a v : Word) : (s.writeMem a v).o = s.o := rfl
@[simp] theorem State.writeMem_mem (s : State) (a v : Word) : (s.writeMem a v).mem = s.mem.put a.toNat v := rfl
@[simp] theorem State.writeMem_busy (s : State) (a v : Word) : (s.writeMem a v).busy = s.busy := rfl
@[simp] theorem State.writeMem_reg (s : State) (a v : Word) (q : Reg) : (s.writeMem a v).reg q = s.reg q := rfl

@[simp] theorem State.advancePc_regs (s : State) : (s.advancePc).regs = s.regs := rfl
@[simp] theorem State.advancePc_pc (s : State) : (s.advancePc).pc = s.pc + 1#16 := rfl
@[simp] theorem State.advancePc_sp (s : State) : (s.advancePc).sp = s.sp := rfl
@[simp] theorem State.advancePc_o (s : State) : (s.advancePc).o = s.o := rfl
@[simp] theorem State.advancePc_mem (s : State) : (s.advancePc).mem = s.mem := rfl
@[simp] theorem State.advancePc_busy (s : State) : (s.advancePc).busy = s.busy := rfl
@[simp] theorem State.advancePc_reg (s : State) (q : Reg) : (s.advancePc).reg q = s.reg q := rfl
@[simp] theorem State.advancePc_readMem (s : State) (x : Word) : (s.advancePc).readMem x = s.readMem x := rfl

@[simp] theorem State.beginTick_regs (s : State) : (s.beginTick).regs = s.regs := rfl
@[simp] theorem State.beginTick_pc (s : State) : (s.beginTick).pc = s.pc := rfl
@[simp] theorem State.beginTick_sp (s : State) : (s.beginTick).sp = s.sp := rfl
@[simp] theorem State.beginTick_o (s : State) : (s.beginTick).o = s.o := rfl
@[simp] theorem State.beginTick_mem (s : State) : (s.beginTick).mem = s.mem := rfl
@[simp] theorem State.beginTick_busy (s : State) : (s.beginTick).busy = true := rfl
@[simp] theorem State.beginTick_reg (s : State) (q : Reg) : (s.beginTick).reg q = s.reg q := rfl
@[simp] theorem State.beginTick_readMem (s : State) (x : Word) : (s.beginTick).readMem x = s.readMem x := rfl

@[simp] theorem State.endTick_regs (s : State) : (s.endTick).regs = s.regs := rfl
@[simp] theorem State.endTick_pc (s : State) : (s.endTick).pc = s.pc := rfl
@[simp] theorem State.endTick_sp (s : State) : (s.endTick).sp = s.sp := rfl
@[simp] theorem State.endTick_o (s : State) : (s.endTick).o = s.o := rfl
@[simp] theorem State.endTick_mem (s : State) : (s.endTick).mem = s.mem := rfl
@[simp] theorem State.endTick_busy (s : State) : (s.endTick).busy = false := rfl
@[simp] theorem State.endTick_reg (s : State) (q : Reg) : (s.endTick).reg q = s.reg q := rfl
@[simp] theorem State.endTick_readMem (s : State) (x : Word) : (s.endTick).readMem x = s.readMem x := rfl

/-! ## The register file -/

theorem Regs.get_set (g : Regs) (r q : Reg) (v : Word) : (g.set r v).get q = if q = r then v else g.get q := by
  cases r <;> cases q <;> rfl

@[simp] theorem Regs.get_set_same (g : Regs) (r : Reg) (v : Word) : (g.set r v).get r = v := by
  simp [Regs.get_set]

theorem Regs.get_set_other (g : Regs) {r q : Reg} (v : Word) (h : q ≠ r) : (g.set r v).get q = g.get q := by
  simp [Regs.get_set, h]

@[simp] theorem State.setReg_reg_same (s : State) (r : Reg) (v : Word) : (s.setReg r v).reg r = v :=
  Regs.get_set_same s.regs r v

theorem State.setReg_reg_other (s : State) {r q : Reg} (v : Word) (h : q ≠ r) : (s.setReg r v).reg q = s.reg q :=
  Regs.get_set_other s.regs v h

/-! ## Outcomes and the flag's Word -/

@[simp] theorem endTickOf_next (t : State) : endTickOf (.next t) = .next t.endTick := rfl

@[simp] theorem wordOfO_ne_zero (b : Bool) : (wordOfO b ≠ 0#16) ↔ b = true := by cases b <;> decide

@[simp] theorem oOfWord_wordOfO (b : Bool) : oOfWord (wordOfO b) = b := by cases b <;> decide

end Sys2Proof.Machine
end

