-- ==== Sys2Proof/Laws/Memory.lean ====
section
/-! SUPPORT. The laws of the memory: what a cell reads as after a write, and that every memory operation keeps the
canonical form. -/

namespace Sys2Proof.Machine

theorem Memory.get_erase (m : Memory) (a x : Nat) :
    (m.erase a).get x = if x = a then Config.resetCell else m.get x := by
  induction m with
  | nil => simp [Memory.erase, Memory.get]
  | cons e rest ih =>
    obtain ⟨k, v⟩ := e
    by_cases hk : a = k <;> by_cases hx : x = k <;> by_cases hxa : x = a <;>
      simp_all [Memory.erase, Memory.get]

theorem Memory.get_insert (m : Memory) (a x : Nat) (v : Word) (fresh : ∀ e ∈ m, e.1 ≠ a) :
    (m.insert a v).get x = if x = a then v else m.get x := by
  induction m with
  | nil => simp [Memory.insert, Memory.get]
  | cons e rest ih =>
    obtain ⟨k, w⟩ := e
    have hk : k ≠ a := fresh (k, w) (by simp)
    have ih := ih (fun e he => fresh e (by simp [he]))
    by_cases hlt : a < k
    · simp only [Memory.insert, hlt, if_true, Memory.get]
    · simp only [Memory.insert, hlt, if_false, Memory.get, ih]
      by_cases hx : x = k <;> by_cases hxa : x = a <;> simp_all

theorem Memory.mem_erase {m : Memory} {a : Nat} {e : Nat × Word} : e ∈ m.erase a ↔ e ∈ m ∧ e.1 ≠ a := by
  induction m with
  | nil => simp [Memory.erase]
  | cons f rest ih =>
    obtain ⟨k, v⟩ := f
    by_cases hk : a = k
    · subst hk
      simp only [Memory.erase, if_true, ih, List.mem_cons]
      constructor
      · rintro ⟨h, h'⟩; exact ⟨.inr h, h'⟩
      · rintro ⟨rfl | h, h'⟩
        · exact absurd rfl h'
        · exact ⟨h, h'⟩
    · simp only [Memory.erase, hk, if_false, List.mem_cons, ih]
      constructor
      · rintro (rfl | ⟨h, h'⟩)
        · exact ⟨.inl rfl, Ne.symm hk⟩
        · exact ⟨.inr h, h'⟩
      · rintro ⟨rfl | h, h'⟩
        · exact .inl rfl
        · exact .inr ⟨h, h'⟩

theorem Memory.mem_insert {m : Memory} {a : Nat} {v : Word} {e : Nat × Word} :
    e ∈ m.insert a v ↔ e = (a, v) ∨ e ∈ m := by
  induction m with
  | nil => simp [Memory.insert]
  | cons f rest ih =>
    obtain ⟨k, w⟩ := f
    by_cases hlt : a < k
    · simp [Memory.insert, hlt]
    · simp only [Memory.insert, hlt, if_false, List.mem_cons, ih]
      exact or_left_comm

theorem Memory.erase_pairwise {m : Memory} (a : Nat) (h : m.Pairwise (fun e f => e.1 < f.1)) :
    (m.erase a).Pairwise (fun e f => e.1 < f.1) := by
  induction m with
  | nil => simp [Memory.erase]
  | cons e rest ih =>
    obtain ⟨k, v⟩ := e
    obtain ⟨hd, tl⟩ := List.pairwise_cons.mp h
    by_cases hk : a = k
    · simpa [Memory.erase, hk] using hk ▸ ih tl
    · simp only [Memory.erase, hk, if_false]
      exact List.pairwise_cons.mpr ⟨fun f hf => hd f (Memory.mem_erase.mp hf).1, ih tl⟩

theorem Memory.insert_pairwise {m : Memory} {a : Nat} (v : Word) (fresh : ∀ e ∈ m, e.1 ≠ a)
    (h : m.Pairwise (fun e f => e.1 < f.1)) : (m.insert a v).Pairwise (fun e f => e.1 < f.1) := by
  induction m with
  | nil => simp [Memory.insert]
  | cons e rest ih =>
    obtain ⟨k, w⟩ := e
    obtain ⟨hd, tl⟩ := List.pairwise_cons.mp h
    have hk : k ≠ a := fresh (k, w) (by simp)
    by_cases hlt : a < k
    · simp only [Memory.insert, hlt, if_true]
      refine List.pairwise_cons.mpr ⟨fun f hf => ?_, h⟩
      rcases List.mem_cons.mp hf with rfl | hf
      · exact hlt
      · exact lt_trans hlt (hd f hf)
    · simp only [Memory.insert, hlt, if_false]
      refine List.pairwise_cons.mpr ⟨fun f hf => ?_, ih (fun e he => fresh e (by simp [he])) tl⟩
      rcases Memory.mem_insert.mp hf with rfl | hf
      · exact lt_of_le_of_ne (not_lt.mp hlt) hk
      · exact hd f hf

/-- What every address reads as after a write: the written Word at the written address, the old Word elsewhere. -/
theorem Memory.get_put (m : Memory) (a x : Nat) (v : Word) : (m.put a v).get x = if x = a then v else m.get x := by
  unfold Memory.put
  split
  · next h => rw [Memory.get_erase, h]
  · rw [Memory.get_insert _ _ _ _ (fun e he => (Memory.mem_erase.mp he).2), Memory.get_erase]
    split <;> simp_all

/-- A write to one of the 65536 cells keeps the canonical form. -/
theorem Memory.put_wf {m : Memory} {a : Nat} (v : Word) (ha : a < Config.memWords) (h : m.wf) : (m.put a v).wf := by
  obtain ⟨hp, hv⟩ := h
  have hp' := Memory.erase_pairwise a hp
  unfold Memory.put
  split
  · exact ⟨hp', fun e he => hv e (Memory.mem_erase.mp he).1⟩
  · next hne =>
    refine ⟨Memory.insert_pairwise v (fun e he => (Memory.mem_erase.mp he).2) hp', fun e he => ?_⟩
    rcases Memory.mem_insert.mp he with rfl | he
    · exact ⟨ha, hne⟩
    · exact hv e (Memory.mem_erase.mp he).1

theorem State.readMem_writeMem (s : State) (a x v : Word) :
    (s.writeMem a v).readMem x = if x = a then v else s.readMem x := by
  simp only [State.readMem, State.writeMem, Memory.get_put, BitVec.toNat_inj]

@[simp] theorem State.readMem_writeMem_same (s : State) (a v : Word) : (s.writeMem a v).readMem a = v := by
  simp [State.readMem_writeMem]

theorem State.readMem_writeMem_other (s : State) {a x : Word} (v : Word) (h : x ≠ a) :
    (s.writeMem a v).readMem x = s.readMem x := by
  simp [State.readMem_writeMem, h]

theorem State.writeMem_wf {s : State} (a v : Word) (h : s.mem.wf) : (s.writeMem a v).mem.wf :=
  Memory.put_wf v a.isLt h

theorem State.storeWords_wf {s : State} (a : Word) (ws : List Word) (h : s.mem.wf) : (s.storeWords a ws).mem.wf := by
  induction ws generalizing s a with
  | nil => exact h
  | cons w ws ih => exact ih (a + 1#16) (State.writeMem_wf a w h)

/-- A run of writes touches memory alone. -/
theorem State.storeWords_eq (s : State) (a : Word) (ws : List Word) :
    s.storeWords a ws = { s with mem := (s.storeWords a ws).mem } := by
  induction ws generalizing s a with
  | nil => rfl
  | cons w ws ih =>
    rw [State.storeWords, ih]
    rfl

theorem State.withFetchWord_wf {s : State} (nbits w : Nat) (h : s.mem.wf) : (s.withFetchWord nbits w).mem.wf :=
  State.storeWords_wf s.pc _ h

theorem State.reset_mem_wf : State.reset.mem.wf := by decide

end Sys2Proof.Machine
end

