-- ==== Sys2Proof/Laws/Operands.lean ====
section
/-! SUPPORT. One lemma per operation of the operand resolver: what it can do, said once. -/

namespace Sys2Proof.Machine

/-- Resolving changes PC by the extension word and SP by the stack operand, and nothing else (R100). -/
theorem resolve_state (c : Operand) (s : State) :
    (resolve c s).2 = { s with pc := s.pc + BitVec.ofNat 16 c.extWords, sp := s.sp + spChange c } := by
  cases c <;> simp [resolve, Operand.extWords, spChange, State.advancePc, State.setPc, State.setSp, BitVec.sub_eq_add_neg]

@[simp] theorem resolve_regs (c : Operand) (s : State) : (resolve c s).2.regs = s.regs := by rw [resolve_state]
@[simp] theorem resolve_reg (c : Operand) (s : State) (r : Reg) : (resolve c s).2.reg r = s.reg r := by
  rw [resolve_state]; rfl
@[simp] theorem resolve_pc (c : Operand) (s : State) : (resolve c s).2.pc = s.pc + BitVec.ofNat 16 c.extWords := by
  rw [resolve_state]
@[simp] theorem resolve_sp (c : Operand) (s : State) : (resolve c s).2.sp = s.sp + spChange c := by
  rw [resolve_state]
@[simp] theorem resolve_o (c : Operand) (s : State) : (resolve c s).2.o = s.o := by rw [resolve_state]
@[simp] theorem resolve_mem (c : Operand) (s : State) : (resolve c s).2.mem = s.mem := by rw [resolve_state]
@[simp] theorem resolve_busy (c : Operand) (s : State) : (resolve c s).2.busy = s.busy := by rw [resolve_state]
@[simp] theorem resolve_readMem (c : Operand) (s : State) (x : Word) : (resolve c s).2.readMem x = s.readMem x := by
  rw [resolve_state]; rfl

/-- The latches of a tick in the statements' words (R31, R202, R203). -/
theorem latchOperands_latches (ca cb : Operand) (s : State) :
    (latchOperands ca cb s).1.locA = destination ca s ∧ (latchOperands ca cb s).1.a = operandA ca s ∧
      (latchOperands ca cb s).1.b = operandB ca cb s :=
  ⟨rfl, rfl, rfl⟩

/-- The state after both operands are resolved: PC at the instruction's last word, SP moved, the rest as before. -/
theorem latchOperands_state (ca cb : Operand) (s : State) :
    (latchOperands ca cb s).2 = { s with pc := lastWordAddress ca cb s, sp := spAfter ca cb s } := by
  have h : (latchOperands ca cb s).2 = (resolve cb (resolve ca s).2).2 := rfl
  rw [h, resolve_state, resolve_state]
  simp [lastWordAddress, spAfter, BitVec.add_assoc, BitVec.ofNat_add]

/-- What a write does, by location (R121). -/
theorem writeLoc_cases (l : Loc) (v : Word) (s : State) :
    (∃ r, l = .reg r ∧ writeLoc l v s = s.setReg r v) ∨ (∃ a, l = .mem a ∧ writeLoc l v s = s.writeMem a v) ∨
      (l = .sp ∧ writeLoc l v s = s.setSp v) ∨ (l = .pc ∧ writeLoc l v s = s.setPc v) ∨
      (l = .o ∧ writeLoc l v s = s.setO (decide (v ≠ 0#16))) ∨ ((∃ w, l = .lit w) ∧ writeLoc l v s = s) := by
  cases l <;> simp [writeLoc, oOfWord]

theorem writeLoc_wf (l : Loc) (v : Word) {s : State} (h : s.mem.wf) : (writeLoc l v s).mem.wf := by
  rcases writeLoc_cases l v s with ⟨r, _, e⟩ | ⟨a, _, e⟩ | ⟨_, e⟩ | ⟨_, e⟩ | ⟨_, e⟩ | ⟨_, e⟩ <;> rw [e]
  · exact h
  · exact State.writeMem_wf a v h
  all_goals exact h

@[simp] theorem writeLoc_busy (l : Loc) (v : Word) (s : State) : (writeLoc l v s).busy = s.busy := by
  cases l <;> rfl

end Sys2Proof.Machine
end

