-- ==== Sys2Proof/Laws/Flags.lean ====
section
/-! SUPPORT. The masked result and the overflow flag of an exact integer, as plain Word and Nat facts. -/

namespace Sys2Proof.Machine

theorem maskRaw_natCast (n : Nat) : maskRaw (n : Int) = BitVec.ofNat 16 n := by
  simp [maskRaw]

theorem outOfRange_natCast (n : Nat) : outOfRange (n : Int) = decide (65535 < n) := by
  simp only [outOfRange, decide_eq_decide]
  omega

theorem outOfRange_of_lt {n : Nat} (h : n < 65536) : outOfRange (n : Int) = false := by
  rw [outOfRange_natCast]
  simp only [decide_eq_false_iff_not]
  omega

theorem maskRaw_sub (a b : Word) : maskRaw ((a.toNat : Int) - (b.toNat : Int)) = a - b := by
  apply BitVec.eq_of_toNat_eq
  simp only [maskRaw, BitVec.toNat_ofInt, BitVec.toNat_sub]
  omega

theorem outOfRange_sub (a b : Word) :
    outOfRange ((a.toNat : Int) - (b.toNat : Int)) = decide (a.toNat < b.toNat) := by
  simp only [outOfRange, decide_eq_decide]
  omega

/-- What an arithmetic executor hands to the tick for a natural raw result. -/
theorem arithmetic_natCast (n : Nat) :
    arithmetic (n : Int) = { result := some (BitVec.ofNat 16 n), skip := false, o := some (decide (65535 < n)) } := by
  simp [arithmetic, maskRaw_natCast, outOfRange_natCast]

end Sys2Proof.Machine
end

