-- ==== Sys2Proof/Laws/Exec.lean ====
section
/-! SUPPORT. The tick said once: every instruction answers a next state, the one its executor gives. -/

namespace Sys2Proof.Machine

/-- Every meaning is the tick of its executor (R200, R204). -/
theorem exec_eq_runTick (i : Instr) (s : State) : exec i s = .next (runTick i.opA i.opB (executor i) s) := by
  cases i <;> rfl

/-- The tick in the statements' words: flag, skip, write-back and increment, over the state in which both operands
are resolved. -/
theorem runTick_eq (ca cb : Operand) (f : Word → Word → Executed) (s : State) :
    runTick ca cb f s = finishTick (destination ca s) (f (operandA ca s) (operandB ca cb s))
      { s with pc := lastWordAddress ca cb s, sp := spAfter ca cb s } := by
  have h := latchOperands_latches ca cb s
  simp only [runTick, h.1, h.2.1, h.2.2, latchOperands_state]

theorem applyO_wf (o : Option Bool) {s : State} (h : s.mem.wf) : (applyO o s).mem.wf := by
  cases o <;> exact h

theorem applySkip_wf (k : Bool) {s : State} (h : s.mem.wf) : (applySkip k s).mem.wf := by
  cases k <;> exact h

theorem writeBack_wf (l : Loc) (r : Option Word) {s : State} (h : s.mem.wf) : (writeBack l r s).mem.wf := by
  cases r
  · exact h
  · exact writeLoc_wf l _ h

theorem finishTick_wf (l : Loc) (e : Executed) {s : State} (h : s.mem.wf) : (finishTick l e s).mem.wf :=
  writeBack_wf l e.result (applySkip_wf e.skip (applyO_wf e.o h))

/-- A next state of `exec` is the executor's tick. -/
theorem exec_next {i : Instr} {s t : State} (h : exec i s = .next t) : t = runTick i.opA i.opB (executor i) s := by
  rw [exec_eq_runTick] at h
  exact (Host.Outcome.next.inj h).symm

/-- The kinds of executor: a result and no skip, with O written as the family says, or no result and O kept. -/
theorem executor_shape (i : Instr) (a b : Word) :
    ((executor i a b).result.isSome = writesA i) ∧ ((executor i a b).o.isSome = writesO i) ∧
      (writesA i = true → (executor i a b).skip = false) := by
  cases i <;>
    simp [executor, aluNop, aluSet, aluAdd, aluSub, aluMul, aluShl, aluShr, aluAnd, aluBor, aluXor, aluIfe,
      aluIfn, aluIfg, aluIfb, arithmetic, moving, unlessHolds, writesA, writesO] <;>
    (first | (unfold aluDiv; split <;> simp [arithmetic]) | (unfold aluMod; split <;> simp [arithmetic]))

/-- An executor that gives a result makes its instruction complete with that result (R204, R205). -/
theorem writesResult_of_executor {i : Instr} {s : State} {v : Word} {o : Option Bool}
    (h : executor i (operandA i.opA s) (operandB i.opA i.opB s) = { result := some v, skip := false, o := o }) :
    writesResult i s v (o.getD s.o) := by
  refine ⟨_, exec_eq_runTick i s, ?_⟩
  rw [runTick_eq, h]
  cases hd : destination i.opA s <;> cases o <;>
    simp [finishTick, applyO, applySkip, writeBack, writeLoc, shows, State.setReg, State.setPc, State.setSp,
      State.setO, State.advancePc, State.reg, Regs.get_set, State.readMem, State.writeMem, Memory.get_put, oOfWord] <;>
    intro cell hc hc' <;> simp_all [BitVec.toNat_inj]

/-- An executor that gives a result and writes O: the arithmetic family. -/
theorem writesResult_of_flag {i : Instr} {s : State} {v : Word} {b : Bool}
    (h : executor i (operandA i.opA s) (operandB i.opA i.opB s) = { result := some v, skip := false, o := some b }) :
    writesResult i s v b :=
  writesResult_of_executor h

/-- An executor that gives a result and keeps O: SET and the bitwise opcodes. -/
theorem writesResult_of_keep {i : Instr} {s : State} {v : Word}
    (h : executor i (operandA i.opA s) (operandB i.opA i.opB s) = { result := some v, skip := false, o := none }) :
    writesResult i s v s.o :=
  writesResult_of_executor h

/-- An executor that gives no result and keeps O makes its instruction complete with PC and SP alone changed
(R194, R195). -/
theorem exec_of_executor_none {i : Instr} {s : State} {k : Bool}
    (h : executor i (operandA i.opA s) (operandB i.opA i.opB s) = { result := none, skip := k, o := none }) :
    exec i s = .next { s with
      pc := lastWordAddress i.opA i.opB s + (if k then 2#16 else 1#16), sp := spAfter i.opA i.opB s } := by
  rw [exec_eq_runTick, runTick_eq, h]
  cases k <;> simp [finishTick, applyO, applySkip, writeBack, State.setPc, State.advancePc, BitVec.add_assoc]

end Sys2Proof.Machine
end

