-- ==== Sys2Proof/Laws/PerInstr.lean ====
section
/-! SUPPORT. One lemma per instruction: its word shows its fields (spec/30_encoding.md R71, R73). -/

namespace Sys2Proof.Laws

theorem inRange_iff (f : Fields) : f.inRange = true ↔ f.op < 16 ∧ f.a < 64 ∧ f.b < 64 := by
  simp [Fields.inRange, and_assoc]

theorem code_lt (c : Operand) : c.code < 64 := by
  cases c with
  | reg r | regInd r | regIndOff r => cases r <;> decide
  | lit v => simp only [Operand.code]; omega
  | _ => decide

/-- Extracting the fields of the word of three in-range fields gives them back. -/
theorem fieldsOf_encodeFields {f : Fields} (ho : f.op < 16) (ha : f.a < 64) (hb : f.b < 64) :
    fieldsOf (encodeFields f) = f := by
  obtain ⟨o, a, b⟩ := f
  simp only [fieldsOf, encodeFields, BitVec.toNat_ofNat, Fields.mk.injEq] at *
  omega

end Sys2Proof.Laws

namespace Sys2Proof.Laws.EncodedFields

/-- The instruction's word splits into its opcode number and its two value codes, each in its range. -/
def Statement (i : Instr) : Prop := fieldsOf (encodeWord i) = i.fields ∧ i.fields.inRange = true

theorem of_opcode_lt {i : Instr} (h : i.opcode < 16) : Statement i :=
  ⟨fieldsOf_encodeFields h (code_lt _) (code_lt _), by
    simp [Fields.inRange, Instr.fields, h, code_lt]⟩

theorem nop (a b : Operand) : Statement (.nop a b) := of_opcode_lt (by simp [Instr.opcode])
theorem set (a b : Operand) : Statement (.set a b) := of_opcode_lt (by simp [Instr.opcode])
theorem add (a b : Operand) : Statement (.add a b) := of_opcode_lt (by simp [Instr.opcode])
theorem sub (a b : Operand) : Statement (.sub a b) := of_opcode_lt (by simp [Instr.opcode])
theorem mul (a b : Operand) : Statement (.mul a b) := of_opcode_lt (by simp [Instr.opcode])
theorem div (a b : Operand) : Statement (.div a b) := of_opcode_lt (by simp [Instr.opcode])
theorem mod (a b : Operand) : Statement (.mod a b) := of_opcode_lt (by simp [Instr.opcode])
theorem shl (a b : Operand) : Statement (.shl a b) := of_opcode_lt (by simp [Instr.opcode])
theorem shr (a b : Operand) : Statement (.shr a b) := of_opcode_lt (by simp [Instr.opcode])
theorem and (a b : Operand) : Statement (.and a b) := of_opcode_lt (by simp [Instr.opcode])
theorem bor (a b : Operand) : Statement (.bor a b) := of_opcode_lt (by simp [Instr.opcode])
theorem xor (a b : Operand) : Statement (.xor a b) := of_opcode_lt (by simp [Instr.opcode])
theorem ife (a b : Operand) : Statement (.ife a b) := of_opcode_lt (by simp [Instr.opcode])
theorem ifn (a b : Operand) : Statement (.ifn a b) := of_opcode_lt (by simp [Instr.opcode])
theorem ifg (a b : Operand) : Statement (.ifg a b) := of_opcode_lt (by simp [Instr.opcode])
theorem ifb (a b : Operand) : Statement (.ifb a b) := of_opcode_lt (by simp [Instr.opcode])

end Sys2Proof.Laws.EncodedFields
end

