-- ==== Sys2Proof/Tests/Slice0.lean ====
section
/-! SUPPORT. The model's own tests: ill-formed terms refused, every instruction's word decoded, one step of each
instruction against spec/95_test_vectors.md, and a witness for the hypotheses of each statement that has some. -/

namespace Sys2Proof.Tests

open Sys2Proof.Machine

/-! ## Ill-formed terms -/

theorem test_literal_above_31_refused : (Operand.lit 32#16).wellFormed = false := by decide
theorem test_operand_a_checked : (Instr.set (.lit 32#16) (.lit 31#16)).wellFormed = false := by decide
theorem test_operand_b_checked : (Instr.set (.lit 31#16) (.lit 32#16)).wellFormed = false := by decide
theorem test_opcode_range_checked : (Fields.mk 16 0 0).inRange = false := by decide
theorem test_code_a_range_checked : (Fields.mk 0 64 0).inRange = false := by decide
theorem test_code_b_range_checked : (Fields.mk 0 0 64).inRange = false := by decide
theorem test_opcode_rejected_by_name : decodeFields ⟨16, 0, 0⟩ = .error (.opcode 16) := rfl
theorem test_value_code_rejected_by_name : decodeFields ⟨0, 0, 64⟩ = .error (.valueCode 64) := rfl
theorem test_truncated_rejected_by_name : decode [0x7C01#16] = .error .truncated := rfl

/-! ## Every instruction's word, its fields written out bit by bit: `bbbbbb aaaaaa oooo` (R70, R74, R80) -/

theorem test_decode_nop : decodeWord 0b000000_000000_0000#16 = .ok (.nop (.reg .a) (.reg .a)) := rfl
theorem test_decode_set : decodeWord 0b011111_011110_0001#16 = .ok (.set .absMem .nextWord) := rfl
theorem test_decode_add : decodeWord 0b100011_000000_0010#16 = .ok (.add (.reg .a) (.lit 3#16)) := rfl
theorem test_decode_sub : decodeWord 0b001001_000010_0011#16 = .ok (.sub (.reg .c) (.regInd .b)) := rfl
theorem test_decode_mul : decodeWord 0b000011_001100_0100#16 = .ok (.mul (.regInd .y) (.reg .x)) := rfl
theorem test_decode_div : decodeWord 0b010101_000101_0101#16 = .ok (.div (.reg .z) (.regIndOff .z)) := rfl
theorem test_decode_mod : decodeWord 0b010110_010111_0110#16 = .ok (.mod (.regIndOff .j) (.regIndOff .i)) := rfl
theorem test_decode_shl : decodeWord 0b011001_011000_0111#16 = .ok (.shl .pop .peek) := rfl
theorem test_decode_shr : decodeWord 0b011000_011010_1000#16 = .ok (.shr .push .pop) := rfl
theorem test_decode_and : decodeWord 0b011100_011011_1001#16 = .ok (.and .sp .pc) := rfl
theorem test_decode_bor : decodeWord 0b011011_011101_1010#16 = .ok (.bor .o .sp) := rfl
theorem test_decode_xor : decodeWord 0b011101_011100_1011#16 = .ok (.xor .pc .o) := rfl
theorem test_decode_ife : decodeWord 0b100001_000000_1100#16 = .ok (.ife (.reg .a) (.lit 1#16)) := rfl
theorem test_decode_ifn : decodeWord 0b100000_100000_1101#16 = .ok (.ifn (.lit 0#16) (.lit 0#16)) := rfl
theorem test_decode_ifg : decodeWord 0b101010_000000_1110#16 = .ok (.ifg (.reg .a) (.lit 10#16)) := rfl
theorem test_decode_ifb : decodeWord 0b011111_111111_1111#16 = .ok (.ifb (.lit 31#16) .nextWord) := rfl

theorem test_table_word : decodeTableWord 16 0x5961 = some (.set (.regIndOff .i) (.regIndOff .i)) := rfl
theorem test_encode_word : encodeWord (.set (.regIndOff .i) (.regIndOff .i)) = 0x5961#16 := by decide

/-! ## One step each (spec/95_test_vectors.md) -/

/-- The state after one tick with the words placed at PC, if the tick answers a next state. -/
def stepped (words : List Word) (s : State) : Option State :=
  match step (s.storeWords s.pc words) with
  | .next t => some t
  | .fault _ => none
  | .refused _ => none

/-- The reset state with register A at a value. -/
def withA (v : Word) : State := State.reset.setReg .a v

/-- V24. -/
theorem test_nop_zero_word : stepped [0x0000#16] State.reset = some (State.reset.setPc 1#16) := by decide
/-- V25: NOP still resolves PUSH and the extension word. -/
theorem test_nop_resolves :
    (stepped [0x7DA0#16, 0x1234#16] State.reset).map (fun t => (t.sp, t.pc, t.readMem 0xFFFF#16)) =
      some (0xFFFF#16, 2#16, 0#16) := by decide
/-- V14: B reads PC after A's extension word. -/
theorem test_set_pc_read_after_extension :
    (stepped [0x71E1#16, 0x0010#16] State.reset).map (fun t => (t.readMem 0x10#16, t.pc)) =
      some (1#16, 2#16) := by decide
/-- V28: the extension word across the top of memory. -/
theorem test_set_across_the_top :
    (stepped [0x7C01#16, 0x1234#16] (State.reset.setPc 0xFFFF#16)).map (fun t => (t.reg .a, t.pc)) =
      some (0x1234#16, 1#16) := by decide
/-- V22: the popped cell is written. -/
theorem test_add_pop_destination :
    (stepped [0x8582#16] ((State.reset.setSp 0xFFFF#16).writeMem 0xFFFF#16 0x41#16)).map
      (fun t => (t.readMem 0xFFFF#16, t.sp, t.pc, t.o)) = some (0x42#16, 0#16, 1#16, false) := by decide
/-- V30: the write-back to O comes after the flag update. -/
theorem test_add_o_destination :
    (stepped [0x85D2#16] (State.reset.setO true)).map (fun t => (t.o, t.pc)) = some (true, 1#16) := by decide
/-- R153: 3 - 5. -/
theorem test_sub_borrow :
    (stepped [0x9403#16] (withA 3#16)).map (fun t => (t.reg .a, t.o)) = some (0xFFFE#16, true) := by decide
/-- V31. -/
theorem test_sub_o_destination :
    (stepped [0x85D3#16] (State.reset.setO true)).map (fun t => t.o) = some false := by decide
/-- R155: 300 * 300. -/
theorem test_mul_overflow :
    (stepped [0x7C04#16, 300#16] (withA 300#16)).map (fun t => (t.reg .a, t.o)) = some (24464#16, true) := by decide
/-- R157: 100 / 7. -/
theorem test_div_quotient :
    (stepped [0x9C05#16] (withA 100#16)).map (fun t => (t.reg .a, t.o)) = some (14#16, false) := by decide
/-- P6: division by zero. -/
theorem test_div_by_zero :
    (stepped [0x8005#16] (withA 0x1170#16)).map (fun t => (t.reg .a, t.o)) = some (0#16, true) := by decide
/-- R159: 100 mod 7. -/
theorem test_mod_remainder :
    (stepped [0x9C06#16] (withA 100#16)).map (fun t => (t.reg .a, t.o)) = some (2#16, false) := by decide
/-- D4: 5 mod 0. -/
theorem test_mod_by_zero :
    (stepped [0x8006#16] ((withA 5#16).setO true)).map (fun t => (t.reg .a, t.o)) = some (0#16, false) := by decide
/-- R163: 0x00FF << 12. -/
theorem test_shl_overflow :
    (stepped [0xB007#16] (withA 0xFF#16)).map (fun t => (t.reg .a, t.o)) = some (0xF000#16, true) := by decide
/-- R163: 1 << 16. -/
theorem test_shl_by_width :
    (stepped [0xC007#16] (withA 1#16)).map (fun t => (t.reg .a, t.o)) = some (0#16, true) := by decide
/-- R165: 0xF00F >> 4 clears O. -/
theorem test_shr_clears_o :
    (stepped [0x9008#16] ((withA 0xF00F#16).setO true)).map (fun t => (t.reg .a, t.o)) =
      some (0x0F00#16, false) := by decide
/-- R180. -/
theorem test_and :
    (stepped [0x7C09#16, 0x0FF0#16] ((withA 0xF0F0#16).setO true)).map (fun t => (t.reg .a, t.o)) =
      some (0x00F0#16, true) := by decide
/-- R181. -/
theorem test_bor :
    (stepped [0xBC0A#16] (withA 0xF000#16)).map (fun t => (t.reg .a, t.o)) = some (0xF00F#16, false) := by decide
/-- R182. -/
theorem test_xor :
    (stepped [0x7C0B#16, 0xFFFF#16] ((withA 0x00FF#16).setO true)).map (fun t => (t.reg .a, t.o)) =
      some (0xFF00#16, true) := by decide
/-- V45: PC reads as the instruction's own address. -/
theorem test_ife_pc_equal : (stepped [0x81CC#16] State.reset).map (fun t => t.pc) = some 1#16 := by decide
/-- V42, first tick: one word is skipped. -/
theorem test_ife_skips_one_word :
    (stepped [0x840C#16, 0x7C11#16, 0x0042#16] (withA 5#16)).map (fun t => t.pc) = some 2#16 := by decide
/-- R191: `IFN 0, 0` always skips. -/
theorem test_ifn_always_skips : (stepped [0x820D#16] State.reset).map (fun t => t.pc) = some 2#16 := by decide
/-- Scenario B. -/
theorem test_ifg_scenario_b : (stepped [0xA80E#16] (withA 5#16)).map (fun t => (t.pc, t.reg .a)) =
    some (2#16, 5#16) := by decide
/-- V33: three words and one skipped. -/
theorem test_ifg_after_extension_words :
    (stepped [0x7D6E#16, 0x0010#16, 0x0200#16] (State.reset.writeMem 0x10#16 0x100#16)).map (fun t => t.pc) =
      some 4#16 := by decide
/-- R193: 0x0010 has the bit, 0x0001 has not. -/
theorem test_ifb_common_bit : (stepped [0xC00F#16] (withA 0x10#16)).map (fun t => t.pc) = some 1#16 := by decide
theorem test_ifb_no_common_bit : (stepped [0xC00F#16] (withA 1#16)).map (fun t => t.pc) = some 2#16 := by decide

/-! ## Witnesses: states and operands that meet the hypotheses of the statements -/

theorem witness_sound_idle : State.reset.sound ∧ State.reset.idle ∧ (withA 5#16).sound := by decide
theorem witness_busy : (State.reset.setBusy true).busy = true := rfl
theorem witness_decode_reads_back_encode :
    (Instr.set .absMem (.lit 31#16)).wellFormed = true ∧
      [0x1234#16].length = (Instr.set .absMem (.lit 31#16)).extWords := by decide
theorem witness_only_well_formed_instruction :
    (Instr.ifb (.lit 31#16) (.lit 31#16)).wellFormed = true ∧ encodeWord (.ifb (.lit 31#16) (.lit 31#16)) = 0xFFFF#16 := by
  decide
theorem witness_fields_in_range : (Fields.mk 15 63 63).inRange = true ∧ (Fields.mk 0 0 0).inRange = true := by decide
theorem witness_code_a_out_of_range : decodeFields ⟨16, 64, 64⟩ = .error (.valueCode 64) := rfl
theorem witness_code_b_out_of_range : decodeFields ⟨16, 63, 64⟩ = .error (.valueCode 64) := rfl
theorem witness_opcode_out_of_range : decodeFields ⟨16, 63, 63⟩ = .error (.opcode 16) := rfl
theorem witness_step_runs_decoded :
    State.reset.idle ∧ decodeWord (State.reset.readMem State.reset.pc) = .ok (.nop (.reg .a) (.reg .a)) := ⟨rfl, rfl⟩
theorem witness_step_keeps_sound : State.reset.sound ∧ ∃ t, step State.reset = .next t := ⟨by decide, _, rfl⟩
/-- A destination that is none of O, PC and SP, and a register and a cell it is not (`writesResult`). -/
theorem witness_writes_result :
    destination (.reg .a) State.reset ≠ .o ∧ destination (.reg .a) State.reset ≠ .pc ∧
      destination (.reg .a) State.reset ≠ .sp ∧ destination (.reg .a) State.reset ≠ .reg .b ∧
      destination (.reg .a) State.reset ≠ .mem 0#16 := by decide
/-- Both IFB clauses: the highest bit in both operands, and no bit in both. -/
theorem witness_ifb_common_bit :
    ∃ k < 16,
      (operandA .nextWord ((State.reset.writeMem 1#16 0x8000#16).writeMem 2#16 1#16)).getLsbD k = true ∧
      (operandB .nextWord .absMem ((State.reset.writeMem 1#16 0x8000#16).writeMem 2#16 1#16)).getLsbD k = true := by
  decide
theorem witness_ifb_no_common_bit :
    ¬ ∃ k < 16, (operandA (.lit 16#16) State.reset).getLsbD k = true ∧
      (operandB (.lit 16#16) (.lit 15#16) State.reset).getLsbD k = true := by decide
/-- The flag's finite form at each boundary of the shift count: 0, 1, 15 and 16. -/
theorem witness_shl_finite_form :
    (aluShl 0x8000#16 0#16).o = some false ∧ (aluShl 0x8000#16 1#16).o = some true ∧
      (aluShl 1#16 15#16).o = some false ∧ (aluShl 1#16 16#16).o = some true := by decide
/-- The three cases of the next fetch address: neither skip nor write to PC, skip, write to PC. -/
theorem witness_no_skip_no_pc :
    (executor (.ife (.reg .a) (.reg .a)) (operandA (.reg .a) State.reset)
      (operandB (.reg .a) (.reg .a) State.reset)).skip = false ∧
      written (.ife (.reg .a) (.reg .a)) State.reset ≠ some .pc := by decide
theorem witness_skip :
    (executor (.ifn (.lit 0#16) (.lit 0#16)) (operandA (.lit 0#16) State.reset)
      (operandB (.lit 0#16) (.lit 0#16) State.reset)).skip = true := by decide
theorem witness_writes_pc :
    written (.set .pc (.lit 5#16)) State.reset = some .pc ∧
      (executor (.set .pc (.lit 5#16)) (operandA .pc State.reset)
        (operandB .pc (.lit 5#16) State.reset)).result = some 5#16 := by decide
/-- The zero word at address 0: a step of a decoded instruction, a register and a cell that it does not write. -/
theorem witness_step_changes_only_the_destination :
    State.reset.idle ∧ decodeWord (State.reset.readMem State.reset.pc) = .ok (.nop (.reg .a) (.reg .a)) ∧
      (∃ t, step State.reset = .next t) ∧ written (.nop (.reg .a) (.reg .a)) State.reset ≠ some (.reg .a) ∧
      written (.nop (.reg .a) (.reg .a)) State.reset ≠ some (.mem 0#16) :=
  ⟨rfl, rfl, ⟨_, rfl⟩, by decide, by decide⟩
theorem witness_o_not_named : (Instr.add (.reg .a) .pc).opA ≠ .o ∧ (Instr.add (.reg .a) .pc).opB ≠ .o := by decide
theorem witness_literal_destination :
    writesO (.add (.lit 1#16) .nextWord) = true ∧
      destination (Instr.add (.lit 1#16) .nextWord).opA State.reset = .lit 1#16 := by decide
theorem witness_o_set : (State.reset.setO true).o = true := rfl
theorem witness_divisors : (1#16 ≠ 0#16) ∧ (0xFFFF#16 ≠ 0#16) := by decide
theorem witness_large_shift :
    16 ≤ (operandB (.reg .a) (.lit 16#16) State.reset).toNat ∧ 16 ≤ (operandB (.reg .a) (.lit 31#16) State.reset).toNat := by
  decide
/-- `SET [1], 2` at address 65535 stores at 1, the address it continues at. -/
theorem witness_writes_next_fetch :
    ∃ t, exec (.set .absMem (.lit 2#16)) ((State.reset.setPc 0xFFFF#16).writeMem 0#16 1#16) = .next t ∧
      written (.set .absMem (.lit 2#16)) ((State.reset.setPc 0xFFFF#16).writeMem 0#16 1#16) = some (.mem t.pc) ∧
      (executor (.set .absMem (.lit 2#16))
        (operandA .absMem ((State.reset.setPc 0xFFFF#16).writeMem 0#16 1#16))
        (operandB .absMem (.lit 2#16) ((State.reset.setPc 0xFFFF#16).writeMem 0#16 1#16))).result = some 2#16 :=
  ⟨_, rfl, by decide, rfl⟩
theorem witness_stack_lifo :
    [Reg.x, Reg.y].length = [Operand.lit 7#16, Operand.lit 9#16].length ∧
      [Operand.lit 7#16, Operand.lit 9#16].length ≤ 65536 ∧
      (∀ c ∈ [Operand.lit 7#16, Operand.lit 9#16], c ≠ .pop ∧ c ≠ .push) := by decide
theorem witness_canonical_alike :
    (State.reset.writeMem 3#16 1#16).mem.wf ∧ ((State.reset.writeMem 3#16 2#16).writeMem 3#16 1#16).mem.wf ∧
      ∀ a, (State.reset.writeMem 3#16 1#16).readMem a = ((State.reset.writeMem 3#16 2#16).writeMem 3#16 1#16).readMem a := by
  refine ⟨by decide, by decide, fun a => ?_⟩
  simp only [State.readMem_writeMem]
  split <;> rfl
theorem witness_other_memory_size : (65535 : Int) ≠ 65536 := by decide
/-- A load that just fits, and one that is one word too long. -/
theorem witness_load_bounds :
    State.reset.idle ∧ (0xFFFF#16).toNat + [1#16].length ≤ 65536 ∧ 65536 < (0xFFFF#16).toNat + [1#16, 2#16].length := by decide
theorem witness_load_outside :
    (0#16).toNat < (1#16).toNat ∨ (1#16).toNat + [7#16].length ≤ (0#16).toNat := by decide
theorem witness_not_words :
    State.reset.busy = false ∧ ((-1 : Int) < 0 ∨ 65535 < (-1 : Int)) ∧ ((65536 : Int) < 0 ∨ 65535 < (65536 : Int)) := by
  decide
/-- A Word's bounds for the address, and a value and a list's second entry just outside them. -/
theorem witness_bad_value_at_good_address :
    State.reset.busy = false ∧ ((0 : Int) ≤ 65535 ∧ (65535 : Int) ≤ 65535) ∧ ((65536 : Int) < 0 ∨ 65535 < (65536 : Int)) ∧
      (∀ w ∈ [(65535 : Int), 0], 0 ≤ w ∧ w ≤ 65535) := by decide
theorem witness_host_call_next :
    State.reset.sound ∧ hostCall (.set .sp 4096) State.reset = .next { state := State.reset.setSp 0x1000#16, value := none } :=
  ⟨by decide, rfl⟩

end Sys2Proof.Tests
end

/-! # The architectural state and the host's interface (spec/10_state.md): the proofs of that family -/

namespace Sys2Proof.Machine

/-! ## The decoder answers an instruction for every Word (R72) -/

theorem fieldsOf_inRange (w : Word) : (fieldsOf w).inRange = true := by
  rw [Laws.inRange_iff]
  simp only [fieldsOf]
  omega

theorem decodeOperand_ok {c : Nat} (h : c < 64) : ∃ operand, decodeOperand c = .ok operand := by
  simp only [decodeOperand, h, if_true]
  repeat (split; · exact ⟨_, rfl⟩)
  exact ⟨_, rfl⟩

theorem decodeOpcode_ok {op : Nat} (h : op < 16) (a b : Operand) : ∃ i, decodeOpcode op a b = .ok i := by
  interval_cases op <;> exact ⟨_, rfl⟩

theorem decodeFields_ok {f : Fields} (h : f.inRange = true) : ∃ i, decodeFields f = .ok i := by
  obtain ⟨hop, ha, hb⟩ := (Laws.inRange_iff f).mp h
  obtain ⟨a, ea⟩ := decodeOperand_ok ha
  obtain ⟨b, eb⟩ := decodeOperand_ok hb
  obtain ⟨i, ei⟩ := decodeOpcode_ok hop a b
  exact ⟨i, by simp only [decodeFields, ea, eb, ei]⟩

theorem decodeWord_ok (w : Word) : ∃ i, decodeWord w = .ok i :=
  decodeFields_ok (fieldsOf_inRange w)

/-! ## `busy` passes through a tick: no operand reads it and no instruction writes it (R32) -/

theorem resolve_setBusy (c : Operand) (s : State) (b : Bool) :
    resolve c (s.setBusy b) = ((resolve c s).1, (resolve c s).2.setBusy b) := by
  cases c <;> rfl

theorem readLoc_setBusy (l : Loc) (s : State) (b : Bool) : readLoc l (s.setBusy b) = readLoc l s := by
  cases l <;> rfl

theorem writeLoc_setBusy (l : Loc) (v : Word) (s : State) (b : Bool) :
    writeLoc l v (s.setBusy b) = (writeLoc l v s).setBusy b := by
  cases l <;> rfl

theorem latchOperands_setBusy (ca cb : Operand) (s : State) (b : Bool) :
    latchOperands ca cb (s.setBusy b) = ((latchOperands ca cb s).1, (latchOperands ca cb s).2.setBusy b) := by
  simp only [latchOperands, resolve_setBusy, readLoc_setBusy]

theorem finishTick_setBusy (l : Loc) (e : Executed) (s : State) (b : Bool) :
    finishTick l e (s.setBusy b) = (finishTick l e s).setBusy b := by
  obtain ⟨result, skip, o⟩ := e
  have flag : applyO o (s.setBusy b) = (applyO o s).setBusy b := by cases o <;> rfl
  have skipped (u : State) : applySkip skip (u.setBusy b) = (applySkip skip u).setBusy b := by cases skip <;> rfl
  have written (u : State) : writeBack l result (u.setBusy b) = (writeBack l result u).setBusy b := by
    cases result with
    | none => rfl
    | some v => exact writeLoc_setBusy l v u b
  simp only [finishTick, flag, skipped, written]
  rfl

theorem runTick_setBusy (ca cb : Operand) (f : Word → Word → Executed) (s : State) (b : Bool) :
    runTick ca cb f (s.setBusy b) = (runTick ca cb f s).setBusy b := by
  simp only [runTick, latchOperands_setBusy, finishTick_setBusy]

/-- A state is the same after `busy` is set to the value it has. -/
theorem State.setBusy_self (s : State) : s.setBusy s.busy = s := rfl

@[simp] theorem runTick_busy (ca cb : Operand) (f : Word → Word → Executed) (s : State) :
    (runTick ca cb f s).busy = s.busy :=
  calc (runTick ca cb f s).busy
      = ((runTick ca cb f s).setBusy s.busy).busy := by rw [← runTick_setBusy, State.setBusy_self]
    _ = s.busy := rfl

/-! ## The step, said once -/

theorem step_of_busy {s : State} (h : s.busy = true) : step s = .refused .tickInProgress := by
  simp [step, h]

/-- Between ticks the step is the meaning of the instruction at PC, in that very state (R200). -/
theorem step_of_idle {s : State} {i : Instr} (idle : s.idle) (decoded : decodeWord (s.readMem s.pc) = .ok i) :
    step s = exec i s := by
  have fetched : decodeWord s.beginTick.fetch = .ok i := decoded
  have ticked : (runTick i.opA i.opB (executor i) s.beginTick).endTick = runTick i.opA i.opB (executor i) s :=
    calc (runTick i.opA i.opB (executor i) s.beginTick).endTick
        = (runTick i.opA i.opB (executor i) s).setBusy s.busy := by
          rw [State.beginTick, runTick_setBusy, idle]; rfl
      _ = runTick i.opA i.opB (executor i) s := by
          rw [← runTick_busy i.opA i.opB (executor i) s, State.setBusy_self]
  simp only [step, idle, fetched, exec_eq_runTick, endTickOf_next, ticked]
  rfl

/-- What a step that answers a state can be. -/
theorem step_next_cases {s t : State} (h : step s = .next t) :
    s.busy = false ∧ ∃ i, decodeWord (s.readMem s.pc) = .ok i ∧ t = runTick i.opA i.opB (executor i) s := by
  obtain ⟨i, decoded⟩ := decodeWord_ok (s.readMem s.pc)
  cases busy : s.busy with
  | true => cases (step_of_busy busy).symm.trans h
  | false => exact ⟨rfl, i, decoded, exec_next ((step_of_idle busy decoded).symm.trans h)⟩

theorem runTick_wf (ca cb : Operand) (f : Word → Word → Executed) {s : State} (h : s.mem.wf) :
    (runTick ca cb f s).mem.wf := by
  rw [runTick_eq]
  exact finishTick_wf _ _ h

theorem step_sound {s t : State} (sound : s.sound) (h : step s = .next t) : t.sound := by
  obtain ⟨idle, i, -, rfl⟩ := step_next_cases h
  exact ⟨runTick_wf _ _ _ sound.1, (runTick_busy ..).trans idle⟩

/-- Settles O11: the write-back is the tick's only write to memory and keeps the canonical form. -/
theorem stepKeepsSound : Obligations.StepKeepsSound :=
  fun _ _ => step_sound

/-- Settles O9: the word at PC decodes whatever it is, and every instruction completes. -/
theorem idleStepCompletes : Obligations.IdleStepCompletes := by
  intro s idle
  obtain ⟨i, decoded⟩ := decodeWord_ok (s.readMem s.pc)
  have stepped : step s = .next (runTick i.opA i.opB (executor i) s) :=
    (step_of_idle idle decoded).trans (exec_eq_runTick i s)
  exact ⟨_, stepped, (runTick_busy ..).trans idle, by simp only [hostCall, hostTick, stepped]⟩

/-- Settles O10. -/
theorem tickDuringTickRefused : Obligations.TickDuringTickRefused :=
  fun _ => step_of_busy

/-! ## The frame of a tick: registers and cells outside the written location (R205) -/

theorem writeLoc_reg_other {l : Loc} {r : Reg} (v : Word) (s : State) (h : l ≠ .reg r) :
    (writeLoc l v s).reg r = s.reg r := by
  cases l with
  | reg q => exact State.setReg_reg_other s v (fun e => h (e ▸ rfl))
  | _ => rfl

theorem writeLoc_readMem_other {l : Loc} {x : Word} (v : Word) (s : State) (h : l ≠ .mem x) :
    (writeLoc l v s).readMem x = s.readMem x := by
  cases l with
  | mem a => exact State.readMem_writeMem_other s v (fun e => h (e ▸ rfl))
  | _ => rfl

/-- Of registers and memory, the end of a tick changes what the write-back changes. -/
theorem finishTick_regs_mem (l : Loc) (e : Executed) (s : State) :
    (finishTick l e s).regs = (writeBack l e.result s).regs ∧
      (finishTick l e s).mem = (writeBack l e.result s).mem := by
  obtain ⟨result, skip, o⟩ := e
  cases result with
  | none => cases o <;> cases skip <;> exact ⟨rfl, rfl⟩
  | some v => cases l <;> cases o <;> cases skip <;> exact ⟨rfl, rfl⟩

theorem finishTick_reg_other {l : Loc} {e : Executed} {r : Reg} (s : State)
    (h : e.result.isSome = true → l ≠ .reg r) : (finishTick l e s).reg r = s.reg r := by
  rw [State.reg, (finishTick_regs_mem l e s).1]
  cases result : e.result with
  | none => rfl
  | some v => exact writeLoc_reg_other v s (h (by simp [result]))

theorem finishTick_readMem_other {l : Loc} {e : Executed} {x : Word} (s : State)
    (h : e.result.isSome = true → l ≠ .mem x) : (finishTick l e s).readMem x = s.readMem x := by
  rw [State.readMem, (finishTick_regs_mem l e s).2]
  cases result : e.result with
  | none => rfl
  | some v => exact writeLoc_readMem_other v s (h (by simp [result]))

/-- An executor hands over a result only where its opcode writes A, and then to the written location. -/
theorem destination_ne_of_written_ne {i : Instr} {s : State} {l : Loc} (h : written i s ≠ some l) {a b : Word}
    (result : (executor i a b).result.isSome = true) : destination i.opA s ≠ l := by
  have writes : writesA i = true := (executor_shape i a b).1 ▸ result
  simpa [written, writes] using h

/-- Settles O32. -/
theorem stepChangesOnlyTheDestination : Obligations.StepChangesOnlyTheDestination := by
  intro s t i idle decoded stepped
  obtain rfl : t = _ := exec_next ((step_of_idle idle decoded).symm.trans stepped)
  rw [runTick_eq]
  exact ⟨fun r h => finishTick_reg_other _ (destination_ne_of_written_ne h),
    fun x h => finishTick_readMem_other _ (destination_ne_of_written_ne h)⟩

/-! ## The overflow flag is read through operand O alone (R27, R29) -/

theorem resolve_setO (c : Operand) (s : State) (b : Bool) :
    resolve c (s.setO b) = ((resolve c s).1, (resolve c s).2.setO b) := by
  cases c <;> rfl

theorem resolve_loc_ne_o {c : Operand} (h : c ≠ .o) (s : State) : (resolve c s).1 ≠ .o := by
  cases c with
  | o => exact absurd rfl h
  | _ => exact Loc.noConfusion

theorem readLoc_setO {l : Loc} (h : l ≠ .o) (s : State) (b : Bool) : readLoc l (s.setO b) = readLoc l s := by
  cases l with
  | o => exact absurd rfl h
  | _ => rfl

theorem writeLoc_setO {l : Loc} (h : l ≠ .o) (v : Word) (s : State) (b : Bool) :
    writeLoc l v (s.setO b) = (writeLoc l v s).setO b := by
  cases l with
  | o => exact absurd rfl h
  | _ => rfl

theorem latchOperands_setO {ca cb : Operand} (ha : ca ≠ .o) (hb : cb ≠ .o) (s : State) (b : Bool) :
    latchOperands ca cb (s.setO b) = ((latchOperands ca cb s).1, (latchOperands ca cb s).2.setO b) := by
  simp only [latchOperands, resolve_setO, readLoc_setO (resolve_loc_ne_o ha _), readLoc_setO (resolve_loc_ne_o hb _)]

/-- An executor that writes the flag hides what the flag was before. -/
theorem finishTick_setO_of_flag (l : Loc) {e : Executed} (h : e.o.isSome = true) (s : State) (b : Bool) :
    finishTick l e (s.setO b) = finishTick l e s := by
  obtain ⟨c, hc⟩ := Option.isSome_iff_exists.mp h
  simp only [finishTick, hc]
  rfl

/-- An executor that keeps the flag leaves it as it was, unless the result goes to O. -/
theorem finishTick_setO_of_keep {l : Loc} (hl : l ≠ .o) {e : Executed} (h : e.o = none) (s : State) (b : Bool) :
    finishTick l e (s.setO b) = (finishTick l e s).setO b := by
  obtain ⟨result, skip, o⟩ := e
  have skipped : applySkip skip (s.setO b) = (applySkip skip s).setO b := by cases skip <;> rfl
  have written (u : State) : writeBack l result (u.setO b) = (writeBack l result u).setO b := by
    cases result with
    | none => rfl
    | some v => exact writeLoc_setO hl v u b
  obtain rfl : o = none := h
  simp only [finishTick, applyO, skipped, written]
  rfl

/-- Settles O33: the latches of the tick do not hold the flag, so only the flag update can tell. -/
theorem overflowReadOnlyWhenNamed : Obligations.OverflowReadOnlyWhenNamed := by
  intro i s b ha hb
  refine ⟨_, exec_eq_runTick i s, ?_⟩
  rw [exec_eq_runTick]
  congr 1
  simp only [runTick, latchOperands_setO ha hb]
  obtain ⟨-, flag, -⟩ := executor_shape i (latchOperands i.opA i.opB s).1.a (latchOperands i.opA i.opB s).1.b
  cases writes : writesO i with
  | true => exact finishTick_setO_of_flag _ (flag.trans writes) _ b
  | false => exact finishTick_setO_of_keep (resolve_loc_ne_o ha s) (by simpa [writes] using flag) _ b

/-! ## Canonical memories (R30, R50; log entry 1) -/

/-- An address with no entry reads as the reset contents. -/
theorem Memory.get_of_forall_ne {m : Memory} {a : Nat} (h : ∀ e ∈ m, e.1 ≠ a) : m.get a = Config.resetCell := by
  induction m with
  | nil => rfl
  | cons e rest ih =>
    have head : a ≠ e.1 := (h e (by simp)).symm
    simpa only [Memory.get, head, if_false] using ih (fun f hf => h f (by simp [hf]))

/-- The entries of a memory in rising order are what its addresses read as. -/
theorem Memory.get_of_mem {m : Memory} (rising : m.Pairwise (fun e f => e.1 < f.1)) {e : Nat × Word} (he : e ∈ m) :
    m.get e.1 = e.2 := by
  induction m with
  | nil => cases he
  | cons f rest ih =>
    obtain ⟨above, rising'⟩ := List.pairwise_cons.mp rising
    rcases List.mem_cons.mp he with rfl | he
    · simp [Memory.get]
    · have other : e.1 ≠ f.1 := (above e he).ne'
      simpa only [Memory.get, other, if_false] using ih rising' he

/-- A canonical memory lists exactly the cells that do not read as the reset contents. -/
theorem Memory.mem_iff_get {m : Memory} (h : m.wf) {a : Nat} {v : Word} :
    (a, v) ∈ m ↔ m.get a = v ∧ v ≠ Config.resetCell := by
  obtain ⟨rising, canonical⟩ := h
  constructor
  · exact fun he => ⟨Memory.get_of_mem rising he, (canonical _ he).2⟩
  · rintro ⟨rfl, hv⟩
    by_contra absent
    refine hv (Memory.get_of_forall_ne fun e he hea => absent ?_)
    rwa [← hea, Memory.get_of_mem rising he]

/-- Settles O43: canonical memories that read alike have the same entries, and rising order fixes their places. -/
theorem canonicalMemoriesReadingAlikeAreEqual : Obligations.CanonicalMemoriesReadingAlikeAreEqual := by
  intro s t hs ht alike
  have entries (e : Nat × Word) (bound : e.1 < 65536) : e ∈ s.mem ↔ e ∈ t.mem := by
    have read : s.mem.get e.1 = t.mem.get e.1 := by
      simpa [State.readMem, Nat.mod_eq_of_lt bound] using alike (BitVec.ofNat 16 e.1)
    rw [Memory.mem_iff_get hs, Memory.mem_iff_get ht, read]
  have : Std.Asymm (fun e f : Nat × Word => e.1 < f.1) := ⟨fun _ _ => lt_asymm⟩
  exact hs.1.eq_of_mem_iff ht.1 fun e =>
    ⟨fun he => (entries e (hs.2 e he).1).mp he, fun he => (entries e (ht.2 e he).1).mpr he⟩

/-! ## Host numbers as Words (R34) -/

@[simp] theorem asWord_toNat (w : Word) : asWord (w.toNat : Int) = some w := by
  have bounds : (0 : Int) ≤ w.toNat ∧ (w.toNat : Int) ≤ 65535 := by omega
  simp [asWord, bounds]

theorem asWord_of_outside {v : Int} (h : v < 0 ∨ 65535 < v) : asWord v = none :=
  if_neg (by omega)

theorem asWord_of_inside {v : Int} (h : 0 ≤ v ∧ v ≤ 65535) : asWord v = some (BitVec.ofInt 16 v) :=
  if_pos h

@[simp] theorem asWords_map_toNat (ws : List Word) : asWords (ws.map (fun w => (w.toNat : Int))) = .ok ws := by
  induction ws with
  | nil => rfl
  | cons w ws ih => simp only [List.map_cons, asWords, asWord_toNat, ih]

/-- The first number outside the range is the one a load names. -/
theorem asWords_append_outside {ws : List Int} (inside : ∀ w ∈ ws, 0 ≤ w ∧ w ≤ 65535) {v : Int}
    (outside : v < 0 ∨ 65535 < v) (rest : List Int) : asWords (ws ++ v :: rest) = .error v := by
  induction ws with
  | nil => simp only [List.nil_append, asWords, asWord_of_outside outside]
  | cons w ws ih =>
    have tail := ih (fun u hu => inside u (by simp [hu]))
    simp only [List.cons_append, asWords, asWord_of_inside (inside w (by simp)), tail]

/-! ## A run of writes (R37) -/

/-- What every cell reads as after a run of at most 65536 writes from `a` on: the Word at its distance from `a`, or
what it held where the run does not reach it. -/
theorem State.readMem_storeWords (s : State) (a x : Word) {ws : List Word} (h : ws.length ≤ 65536) :
    (s.storeWords a ws).readMem x = ws.getD (x - a).toNat (s.readMem x) := by
  induction ws generalizing s a with
  | nil => rfl
  | cons w ws ih =>
    simp only [List.length_cons] at h
    rw [State.storeWords, ih _ _ (by omega), State.readMem_writeMem]
    by_cases hx : x = a
    · subst hx
      have beyond : ws.length ≤ (x - (x + 1#16)).toNat := by bv_omega
      rw [List.getD_eq_default _ _ beyond, BitVec.sub_self]
      simp
    · have distance : (x - a).toNat = (x - (a + 1#16)).toNat + 1 := by bv_omega
      simp [hx, distance]

/-! ## The transactions -/

theorem betweenTicks_of_idle {s : State} (idle : s.idle) (answer : Host.Outcome HostReply Fault Refusal) :
    betweenTicks s answer = answer := by
  simp [betweenTicks, idle]

theorem betweenTicks_of_busy {s : State} (busy : s.busy = true) (answer : Host.Outcome HostReply Fault Refusal) :
    betweenTicks s answer = .refused .accessDuringTick := by
  simp [betweenTicks, busy]

theorem hostLoad_words (ws : List Word) (base : Word) (s : State) :
    hostLoad (ws.map (fun w => (w.toNat : Int))) (base.toNat : Int) s =
      if 65536 < base.toNat + ws.length then .refused .loadPastEnd
      else .next { state := s.storeWords base ws, value := none } := by
  simp only [hostLoad, asWord_toNat, asWords_map_toNat]

/-- Settles O45. -/
theorem loadWritesItsCells : Obligations.LoadWritesItsCells := by
  intro ws base s idle
  simp only [hostCall, betweenTicks_of_idle idle, hostLoad_words]
  refine ⟨fun fits => ⟨s.storeWords base ws, if_neg (by omega), fun k hk => ?_, fun x hx => ?_, ?_⟩,
    fun past => if_pos past⟩
  · have distance : (base + BitVec.ofNat 16 k - base).toNat = k := by bv_omega
    rw [State.readMem_storeWords _ _ _ (by omega), distance, List.getD_eq_getElem _ _ hk]
  · have beyond : ws.length ≤ (x - base).toNat := by bv_omega
    rw [State.readMem_storeWords _ _ _ (by omega), List.getD_eq_default _ _ beyond]
  · rw [State.storeWords_eq]
    exact ⟨rfl, rfl, rfl, rfl, rfl⟩

/-! ## Every transaction keeps the invariant -/

/-- Settles O12. -/
theorem resetIsSound : Obligations.ResetIsSound :=
  ⟨State.reset_mem_wf, rfl⟩

/-! ### What a transaction that answers leaves -/

theorem betweenTicks_next {s : State} {answer : Host.Outcome HostReply Fault Refusal} {r : HostReply}
    (h : betweenTicks s answer = .next r) : answer = .next r := by
  cases busy : s.busy with
  | false => rwa [betweenTicks_of_idle busy] at h
  | true => cases (betweenTicks_of_busy busy answer).symm.trans h

theorem hostNew_next {size : Int} {r : HostReply} (h : hostNew size = .next r) : r.state = State.reset := by
  unfold hostNew at h
  split at h <;> cases h
  rfl

theorem hostLoad_next {words : List Int} {base : Int} {s : State} {r : HostReply}
    (h : hostLoad words base s = .next r) : ∃ a ws, r.state = s.storeWords a ws := by
  unfold hostLoad at h
  split at h
  · cases h
  · cases h
  · split at h <;> cases h
    exact ⟨_, _, rfl⟩

theorem hostTick_next {s : State} {r : HostReply} (h : hostTick s = .next r) : step s = .next r.state := by
  unfold hostTick at h
  split at h <;> cases h
  assumption

theorem hostSet_next {q : HostRegister} {v : Int} {s : State} {r : HostReply} (h : hostSet q v s = .next r) :
    ∃ l w, r.state = writeLoc l w s := by
  unfold hostSet at h
  split at h <;> cases h
  exact ⟨_, _, rfl⟩

theorem hostGetmem_next {a : Int} {s : State} {r : HostReply} (h : hostGetmem a s = .next r) : r.state = s := by
  unfold hostGetmem at h
  split at h <;> cases h
  rfl

theorem hostSetmem_next {a v : Int} {s : State} {r : HostReply} (h : hostSetmem a v s = .next r) :
    ∃ l w, r.state = writeLoc l w s := by
  unfold hostSetmem at h
  split at h <;> cases h
  exact ⟨.mem _, _, rfl⟩

/-! ### The invariant under the host's writes -/

theorem writeLoc_sound (l : Loc) (v : Word) {s : State} (h : s.sound) : (writeLoc l v s).sound :=
  ⟨writeLoc_wf l v h.1, (writeLoc_busy l v s).trans h.2⟩

theorem State.storeWords_sound (a : Word) (ws : List Word) {s : State} (h : s.sound) : (s.storeWords a ws).sound :=
  ⟨State.storeWords_wf a ws h.1, (congrArg State.busy (State.storeWords_eq s a ws)).trans h.2⟩

/-- Settles O48: a transaction creates the reset state, ticks, reads, or writes one place or a run of cells. -/
theorem hostCallsKeepSound : Obligations.HostCallsKeepSound := by
  intro c s r sound answered
  cases c with
  | new size => exact hostNew_next answered ▸ resetIsSound
  | load words base =>
    obtain ⟨a, ws, e⟩ := hostLoad_next (betweenTicks_next answered)
    exact e ▸ State.storeWords_sound a ws sound
  | tick => exact step_sound sound (hostTick_next answered)
  | get q =>
    cases betweenTicks_next answered
    exact sound
  | set q v =>
    obtain ⟨l, w, e⟩ := hostSet_next (betweenTicks_next answered)
    exact e ▸ writeLoc_sound l w sound
  | getmem a => exact hostGetmem_next (betweenTicks_next answered) ▸ sound
  | setmem a v =>
    obtain ⟨l, w, e⟩ := hostSetmem_next (betweenTicks_next answered)
    exact e ▸ writeLoc_sound l w sound

/-! ## Reset, the accessors and the refusals -/

/-- Settles O13: no entry is listed, so every cell reads as the reset contents. -/
theorem resetValues : Obligations.ResetValues := by
  refine ⟨fun r => ?_, rfl, rfl, rfl, fun _ => rfl, rfl⟩
  cases r <;> rfl

/-- Settles O44. -/
theorem newGivesReset : Obligations.NewGivesReset :=
  fun _ _ => ⟨rfl, fun h => if_neg h⟩

/-- Settles O46. -/
theorem accessorsReadAndWrite : Obligations.AccessorsReadAndWrite := by
  intro s v x r idle
  simp only [hostCall, betweenTicks_of_idle idle, hostGet, hostGetmem, hostSet, hostSetmem, asWord_toNat,
    and_true]
  refine ⟨⟨rfl, rfl, rfl, rfl⟩, rfl, rfl, rfl, rfl, s.writeMem x v, rfl, ?_, ?_, rfl⟩
  · exact State.readMem_writeMem_same s x v
  · exact fun y other => State.readMem_writeMem_other s v other

/-- Settles O47. -/
theorem interfaceRefusals : Obligations.InterfaceRefusals := by
  intro s r ws rest a v
  refine ⟨fun busy => ?_, fun idle outside => ?_, fun idle inside outside => ?_⟩
  · simp only [hostCall, betweenTicks_of_busy busy, hostTick, step_of_busy busy, and_self]
  · simp only [hostCall, betweenTicks_of_idle idle, hostSet, hostGetmem, hostSetmem, hostLoad,
      asWord_of_outside outside, and_self]
  · simp only [hostCall, betweenTicks_of_idle idle, hostSetmem, hostLoad, asWord_of_outside outside,
      asWord_of_inside inside, true_and]
    intro first
    simp only [asWords_append_outside first outside]

end Sys2Proof.Machine

/-! # The memory (spec/20_memory.md): the proofs of that family -/

namespace Sys2Proof.Machine

theorem destination_of_written {i : Instr} {s : State} {l : Loc} (h : written i s = some l) :
    destination i.opA s = l := by
  unfold written at h
  split at h
  · exact Option.some.inj h
  · cases h

/-- After the write-back a tick changes no cell: the written cell still holds the result when the tick is over. -/
theorem finishTick_readMem_same {e : Executed} {v : Word} (a : Word) (s : State) (h : e.result = some v) :
    (finishTick (.mem a) e s).readMem a = v := by
  rw [State.readMem, (finishTick_regs_mem (.mem a) e s).2, h]
  exact State.readMem_writeMem_same s a v

/-- A result whose location is a memory cell is what that cell reads as once the instruction is over. -/
theorem exec_readMem_written {i : Instr} {s t : State} {a v : Word} (executed : exec i s = .next t)
    (cell : written i s = some (.mem a))
    (result : (executor i (operandA i.opA s) (operandB i.opA i.opB s)).result = some v) : t.readMem a = v := by
  rw [exec_next executed, runTick_eq, destination_of_written cell]
  exact finishTick_readMem_same a _ result

/-- Settles O41: the fetch reads the cell at PC as the write-back left it (R62). -/
theorem nextFetchSeesWriteBack : Obligations.NextFetchSeesWriteBack :=
  fun _ _ _ _ executed cell result => exec_readMem_written executed cell result

end Sys2Proof.Machine

/-! # The instruction words (spec/30_encoding.md): the proofs of that family -/

namespace Sys2Proof
open Machine

/-! ## Registers and operands against their numbers (R20, R74) -/

@[simp] theorem Reg.ofIndex_index (r : Reg) : Reg.ofIndex r.index = r := by
  cases r <;> rfl

@[simp] theorem Reg.index_ofIndex {n : Nat} (h : n < 8) : (Reg.ofIndex n).index = n := by
  interval_cases n <;> rfl

/-- A well-formed operand is read back from its value code. -/
theorem decodeOperand_code {c : Operand} (h : c.wellFormed = true) : decodeOperand c.code = .ok c := by
  cases c with
  | reg r | regInd r | regIndOff r => cases r <;> rfl
  | lit v =>
    have small : v.toNat < 32 := of_decide_eq_true h
    have value : BitVec.ofNat 16 (32 + v.toNat - 32) = v := by simp
    simp (disch := omega) only [decodeOperand, Operand.code, Nat.mod_eq_of_lt small, if_neg, if_pos, value]
  | _ => rfl

/-- Every number below 64 is the value code of a well-formed operand, by the ranges of the table (R74). -/
theorem exists_wellFormed_with_code {n : Nat} (h : n < 64) : ∃ c : Operand, c.wellFormed = true ∧ c.code = n := by
  obtain reg | regInd | regIndOff | single | lit :
      n < 8 ∨ (8 ≤ n ∧ n < 16) ∨ (16 ≤ n ∧ n < 24) ∨ (24 ≤ n ∧ n < 32) ∨ 32 ≤ n := by omega
  · exact ⟨.reg (.ofIndex n), rfl, Reg.index_ofIndex reg⟩
  · exact ⟨.regInd (.ofIndex (n - 8)), rfl, by rw [Operand.code, Reg.index_ofIndex (by omega)]; omega⟩
  · exact ⟨.regIndOff (.ofIndex (n - 16)), rfl, by rw [Operand.code, Reg.index_ofIndex (by omega)]; omega⟩
  · obtain ⟨low, high⟩ := single
    interval_cases n
    exacts [⟨.pop, rfl, rfl⟩, ⟨.peek, rfl, rfl⟩, ⟨.push, rfl, rfl⟩, ⟨.sp, rfl, rfl⟩, ⟨.pc, rfl, rfl⟩, ⟨.o, rfl, rfl⟩,
      ⟨.absMem, rfl, rfl⟩, ⟨.nextWord, rfl, rfl⟩]
  · have value : (BitVec.ofNat 16 (n - 32)).toNat = n - 32 :=
      (BitVec.toNat_ofNat ..).trans (Nat.mod_eq_of_lt (by omega))
    refine ⟨.lit (BitVec.ofNat 16 (n - 32)), ?_, ?_⟩ <;> simp only [Operand.wellFormed, Operand.code, value]
    · exact decide_eq_true (by omega)
    · omega

theorem decodeOperand_of_ge {n : Nat} (h : 64 ≤ n) : decodeOperand n = .error (.valueCode n) := by
  simp (disch := omega) only [decodeOperand, if_neg]

/-- The decoder and the value code of an operand are inverse. -/
theorem decodeOperand_eq_ok_iff {n : Nat} {c : Operand} :
    decodeOperand n = .ok c ↔ c.wellFormed = true ∧ c.code = n := by
  constructor
  · intro h
    obtain inside | outside := Nat.lt_or_ge n 64
    · obtain ⟨d, wf, rfl⟩ := exists_wellFormed_with_code inside
      have same : d = c := Except.ok.inj ((decodeOperand_code wf).symm.trans h)
      exact same ▸ ⟨wf, rfl⟩
    · cases (decodeOperand_of_ge outside).symm.trans h
  · rintro ⟨wf, rfl⟩
    exact decodeOperand_code wf

/-! ## Instructions against their fields and their word (R71, R73, R80) -/

theorem Instr.wellFormed_iff (i : Instr) :
    i.wellFormed = true ↔ i.opA.wellFormed = true ∧ i.opB.wellFormed = true :=
  Bool.and_eq_true_iff

theorem Instr.opcode_lt (i : Instr) : i.opcode < 16 := by
  cases i <;> simp [Instr.opcode]

theorem decodeOpcode_eq_ok_iff {op : Nat} {a b : Operand} {i : Instr} :
    decodeOpcode op a b = .ok i ↔ i.opcode = op ∧ i.opA = a ∧ i.opB = b := by
  constructor
  · intro h
    unfold decodeOpcode at h
    split at h <;> cases h <;> exact ⟨rfl, rfl, rfl⟩
  · rintro ⟨rfl, rfl, rfl⟩
    cases i <;> rfl

/-- The decoder and the fields of an instruction are inverse: three fields decode to an instruction just when it
is well formed and they are its fields. -/
theorem decodeFields_eq_ok_iff {f : Fields} {i : Instr} :
    decodeFields f = .ok i ↔ i.wellFormed = true ∧ i.fields = f := by
  constructor
  · intro h
    simp only [decodeFields] at h
    split at h
    · cases h
    next a readA =>
      split at h
      · cases h
      next b readB =>
        obtain ⟨wfA, codeA⟩ := decodeOperand_eq_ok_iff.mp readA
        obtain ⟨wfB, codeB⟩ := decodeOperand_eq_ok_iff.mp readB
        obtain ⟨hop, rfl, rfl⟩ := decodeOpcode_eq_ok_iff.mp h
        exact ⟨i.wellFormed_iff.mpr ⟨wfA, wfB⟩, by rw [Instr.fields, hop, codeA, codeB]⟩
  · rintro ⟨wf, rfl⟩
    obtain ⟨wfA, wfB⟩ := i.wellFormed_iff.mp wf
    simp only [decodeFields, Instr.fields, decodeOperand_code wfA, decodeOperand_code wfB]
    exact decodeOpcode_eq_ok_iff.mpr ⟨rfl, rfl, rfl⟩

/-! ## Fields against words (R71, R73) -/

theorem toNat_encodeFields {f : Fields} (h : f.inRange = true) :
    (encodeFields f).toNat = f.op + 16 * f.a + 1024 * f.b := by
  obtain ⟨hop, ha, hb⟩ := (Laws.inRange_iff f).mp h
  exact (BitVec.toNat_ofNat ..).trans (Nat.mod_eq_of_lt (by omega))

theorem fieldsOf_encodeFields_of_inRange {f : Fields} (h : f.inRange = true) : fieldsOf (encodeFields f) = f := by
  obtain ⟨hop, ha, hb⟩ := (Laws.inRange_iff f).mp h
  exact Laws.fieldsOf_encodeFields hop ha hb

theorem encodeFields_fieldsOf (w : Word) : encodeFields (fieldsOf w) = w := by
  apply BitVec.eq_of_toNat_eq
  rw [toNat_encodeFields (fieldsOf_inRange w)]
  simp only [fieldsOf]
  omega

theorem encodeFields_injective {f g : Fields} (hf : f.inRange = true) (hg : g.inRange = true)
    (h : encodeFields f = encodeFields g) : f = g :=
  calc f = fieldsOf (encodeFields f) := (fieldsOf_encodeFields_of_inRange hf).symm
    _ = fieldsOf (encodeFields g) := by rw [h]
    _ = g := fieldsOf_encodeFields_of_inRange hg

/-- Every instruction's word shows its fields, since every opcode number is below 16. -/
theorem encodedFields (i : Instr) : Laws.EncodedFields.Statement i :=
  Laws.EncodedFields.of_opcode_lt i.opcode_lt

/-- Extracting fields and encoding them are inverse, so a word has an instruction's fields just when it is the
instruction's word. -/
theorem fields_eq_fieldsOf_iff {i : Instr} {w : Word} : i.fields = fieldsOf w ↔ encodeWord i = w := by
  constructor
  · intro h
    rw [encodeWord, h, encodeFields_fieldsOf]
  · rintro rfl
    exact (encodedFields i).1.symm

/-- A Word decodes to an instruction just when it is well formed and the Word is its word. -/
theorem decodeWord_eq_ok_iff {w : Word} {i : Instr} :
    decodeWord w = .ok i ↔ i.wellFormed = true ∧ encodeWord i = w := by
  rw [decodeWord, decodeFields_eq_ok_iff, fields_eq_fieldsOf_iff]

/-! ## A sequence of words (R77, R78) -/

/-- A first word that decodes tells how many of the words after it are its extension words. -/
theorem decode_cons_append {w : Word} {i : Instr} {ext : List Word} (decoded : decodeWord w = .ok i)
    (count : ext.length = i.extWords) (rest : List Word) : decode (w :: (ext ++ rest)) = .ok (i, ext, rest) := by
  simp [decode, decoded, ← count]

/-- Settles O2: the first word decodes to the instruction, which tells how many extension words follow. -/
theorem decodeReadsBackEncode : Obligations.DecodeReadsBackEncode :=
  fun _ _ rest wf count => decode_cons_append (decodeWord_eq_ok_iff.mpr ⟨wf, rfl⟩) count rest

/-- Settles O3: the instruction is what the Word decodes to, and an instruction with that word is decoded from it. -/
theorem everyWordIsOneInstruction : Obligations.EveryWordIsOneInstruction := by
  intro w
  obtain ⟨i, decoded⟩ := decodeWord_ok w
  obtain ⟨wf, word⟩ := decodeWord_eq_ok_iff.mp decoded
  refine ⟨fieldsOf_inRange w, i, wf, decoded, word, fun j wfj wordj => ?_⟩
  have decodedj : decodeWord w = .ok j := decodeWord_eq_ok_iff.mpr ⟨wfj, wordj⟩
  exact Except.ok.inj (decodedj.symm.trans decoded)

/-- Settles O4: fields and words are inverse both ways, from which distinct fields have distinct words. -/
theorem fieldsAndWordsInverse : Obligations.FieldsAndWordsInverse :=
  ⟨encodeFields_fieldsOf,
    fun _ h => ⟨toNat_encodeFields h, fieldsOf_encodeFields_of_inRange h⟩,
    fun _ _ hf hg h => encodeFields_injective hf hg h,
    rfl, rfl⟩

/-! ## Where the extension words stand (R77) -/

theorem destination_nextWord (s : State) : destination .nextWord s = .lit (s.readMem (s.pc + 1#16)) := rfl

theorem destination_absMem (s : State) : destination .absMem s = .mem (s.readMem (s.pc + 1#16)) := rfl

theorem destination_regIndOff (r : Reg) (s : State) :
    destination (.regIndOff r) s = .mem (s.reg r + s.readMem (s.pc + 1#16)) := rfl

/-- Operand B's extension word comes after operand A's, if A has one. -/
theorem pc_after_resolve_add_one (c : Operand) (s : State) :
    (resolve c s).2.pc + 1#16 = if c.extWords = 1 then s.pc + 2#16 else s.pc + 1#16 := by
  rw [resolve_pc]
  cases c <;> simp [Operand.extWords, BitVec.add_assoc]

/-- Settles O34: operand B reads its extension word one word after the PC that operand A's resolution leaves. -/
theorem extensionWordAddresses : Obligations.ExtensionWordAddresses := by
  intro ca r s
  refine ⟨⟨destination_nextWord s, destination_absMem s, destination_regIndOff r s⟩, ?_⟩
  simp only [destination_nextWord, destination_absMem, destination_regIndOff, pc_after_resolve_add_one,
    resolve_readMem, resolve_reg, and_self]

/-! ## Lengths and value codes in the spec's own tables (R74, R78) -/

/-- An operand's extension words by its value code: one for 16 to 23, 30 and 31, else none (R76). -/
theorem extWords_eq_ite_code (c : Operand) :
    c.extWords = if (16 ≤ c.code ∧ c.code ≤ 23) ∨ c.code = 30 ∨ c.code = 31 then 1 else 0 := by
  cases c with
  | reg r | regInd r | regIndOff r => cases r <;> rfl
  | lit v =>
    rw [if_neg (by simp only [Operand.code]; omega)]
    rfl
  | _ => rfl

theorem extWords_le_one (c : Operand) : c.extWords ≤ 1 := by
  rw [extWords_eq_ite_code]
  split <;> decide

/-- Settles O5: the length is 1 and the extension words of the two operands. -/
theorem instructionLengthByValueCodes : Obligations.InstructionLengthByValueCodes := by
  intro i
  have length : i.length = 1 + i.opA.extWords + i.opB.extWords := (Nat.add_assoc ..).symm
  have leA := extWords_le_one i.opA
  have leB := extWords_le_one i.opB
  rw [← extWords_eq_ite_code, ← extWords_eq_ite_code]
  omega

theorem toNat_encodeWord (i : Instr) : (encodeWord i).toNat = i.opcode + 16 * i.opA.code + 1024 * i.opB.code :=
  toNat_encodeFields (encodedFields i).2

/-- Well-formed operands listed by their value codes are what those codes decode to. -/
theorem map_decodeOperand_of_map_code {operands : List Operand} {codes : List Nat}
    (code : operands.map Operand.code = codes) (wf : ∀ c ∈ operands, c.wellFormed = true) :
    codes.map decodeOperand = operands.map .ok := by
  rw [← code, List.map_map]
  exact List.map_congr_left fun c mem => decodeOperand_code (wf c mem)

/-- Settles O50: the table's codes are computed, and the other direction is decoding reading a code back. -/
theorem valueCodeMap : Obligations.ValueCodeMap := by
  unfold Obligations.ValueCodeMap
  intro registers operands
  have code : operands.map Operand.code = List.range 64 := by decide
  have wf : ∀ c ∈ operands, c.wellFormed = true := by decide
  exact ⟨code, map_decodeOperand_of_map_code code wf, toNat_encodeWord⟩

end Sys2Proof

/-! # The operand resolver (spec/40_operand_resolver.md): the proofs of that family -/

namespace Sys2Proof.Machine

/-! ## What each class of operand names and reads (R101 to R115, R120) -/

section
variable (r : Reg) (v : Word) (s : State)

@[simp] theorem destination_reg : destination (.reg r) s = .reg r := rfl
@[simp] theorem destination_regInd : destination (.regInd r) s = .mem (s.reg r) := rfl
@[simp] theorem destination_pop : destination .pop s = .mem s.sp := rfl
@[simp] theorem destination_peek : destination .peek s = .mem s.sp := rfl
@[simp] theorem destination_push : destination .push s = .mem (s.sp - 1#16) := rfl
@[simp] theorem destination_sp : destination .sp s = .sp := rfl
@[simp] theorem destination_pc : destination .pc s = .pc := rfl
@[simp] theorem destination_o : destination .o s = .o := rfl
@[simp] theorem destination_lit : destination (.lit v) s = .lit v := rfl

@[simp] theorem operandA_reg : operandA (.reg r) s = s.reg r := rfl
@[simp] theorem operandA_regInd : operandA (.regInd r) s = s.readMem (s.reg r) := rfl
@[simp] theorem operandA_regIndOff :
    operandA (.regIndOff r) s = s.readMem (s.reg r + s.readMem (s.pc + 1#16)) := rfl
@[simp] theorem operandA_pop : operandA .pop s = s.readMem s.sp := rfl
@[simp] theorem operandA_peek : operandA .peek s = s.readMem s.sp := rfl
@[simp] theorem operandA_push : operandA .push s = s.readMem (s.sp - 1#16) := rfl
@[simp] theorem operandA_sp : operandA .sp s = s.sp := rfl
@[simp] theorem operandA_pc : operandA .pc s = s.pc := rfl
@[simp] theorem operandA_o : operandA .o s = if s.o then 1#16 else 0#16 := rfl
@[simp] theorem operandA_absMem : operandA .absMem s = s.readMem (s.readMem (s.pc + 1#16)) := rfl
@[simp] theorem operandA_nextWord : operandA .nextWord s = s.readMem (s.pc + 1#16) := rfl
@[simp] theorem operandA_lit : operandA (.lit v) s = v := rfl

end

/-- Settles O53. -/
theorem operandLocations : Obligations.OperandLocations :=
  fun r v s => ⟨destination_reg r s, destination_regInd r s, destination_regIndOff r s, destination_pop s,
    destination_peek s, destination_push s, destination_sp s, destination_pc s, destination_o s, destination_absMem s,
    destination_nextWord s, destination_lit v s⟩

/-- Settles O51. -/
theorem operandReads : Obligations.OperandReads :=
  fun r v s => ⟨operandA_reg r s, operandA_regInd r s, operandA_regIndOff r s, operandA_pop s, operandA_peek s,
    operandA_push s, operandA_sp s, operandA_pc s, operandA_o s, operandA_absMem s, operandA_nextWord s,
    operandA_lit v s⟩

/-! ## Operand B comes after operand A (R102, R110, R112, R203) -/

theorem add_extWords (c : Operand) (p : Word) :
    p + BitVec.ofNat 16 c.extWords = if c.extWords = 1 then p + 1#16 else p := by
  cases c <;> simp [Operand.extWords]

theorem add_spChange (c : Operand) (p : Word) :
    p + spChange c = if c = .pop then p + 1#16 else if c = .push then p - 1#16 else p := by
  cases c with
  | push => exact (BitVec.sub_eq_add_neg p 1#16).symm
  | _ => simp [spChange]

theorem spChange_of_not_stack {c : Operand} (pop : c ≠ .pop) (push : c ≠ .push) : spChange c = 0#16 := by
  simpa [pop, push] using add_spChange c 0#16

/-- Settles O52: operand B is read as an operand A is, in the state that resolving operand A leaves. -/
theorem operandBReadsAfterOperandA : Obligations.OperandBReadsAfterOperandA := by
  intro ca cb s
  rw [operandB, resolve_state, add_extWords, add_spChange]

/-! ## The whole next state of an instruction that writes a result (R204 to R206) -/

/-- An executor that gives a result makes its instruction complete with the flag, then operand A's location written,
then PC one further, over the state in which both operands are resolved. -/
theorem exec_of_executor_some {i : Instr} {s : State} {v : Word} {o : Option Bool}
    (h : executor i (operandA i.opA s) (operandB i.opA i.opB s) = { result := some v, skip := false, o := o }) :
    exec i s = .next (writeLoc (destination i.opA s) v (applyO o
      { s with pc := lastWordAddress i.opA i.opB s, sp := spAfter i.opA i.opB s })).advancePc := by
  rw [exec_eq_runTick, runTick_eq, h]
  rfl

theorem exec_set_eq (ca cb : Operand) (s : State) :
    exec (.set ca cb) s = .next (writeLoc (destination ca s) (operandB ca cb s)
      { s with pc := lastWordAddress ca cb s, sp := spAfter ca cb s }).advancePc :=
  exec_of_executor_some (i := .set ca cb) (o := none) rfl

theorem aluAdd_eq (a b : Word) :
    aluAdd a b = { result := some (a + b), skip := false, o := some (decide (65535 < a.toNat + b.toNat)) } := by
  rw [aluAdd, ← Int.natCast_add, arithmetic_natCast, BitVec.ofNat_add, BitVec.ofNat_toNat, BitVec.ofNat_toNat]
  rfl

theorem exec_add_eq (ca cb : Operand) (s : State) :
    exec (.add ca cb) s = .next (writeLoc (destination ca s) (operandA ca s + operandB ca cb s)
      { s with
        pc := lastWordAddress ca cb s
        sp := spAfter ca cb s
        o := decide (65535 < (operandA ca s).toNat + (operandB ca cb s).toNat) }).advancePc :=
  exec_of_executor_some (i := .add ca cb) (aluAdd_eq _ _)

theorem aluSub_eq (a b : Word) :
    aluSub a b = { result := some (a - b), skip := false, o := some (decide (a.toNat < b.toNat)) } := by
  rw [aluSub, arithmetic, maskRaw_sub, outOfRange_sub]

theorem exec_sub_eq (ca cb : Operand) (s : State) :
    exec (.sub ca cb) s = .next (writeLoc (destination ca s) (operandA ca s - operandB ca cb s)
      { s with
        pc := lastWordAddress ca cb s
        sp := spAfter ca cb s
        o := decide ((operandA ca s).toNat < (operandB ca cb s).toNat) }).advancePc :=
  exec_of_executor_some (i := .sub ca cb) (aluSub_eq _ _)

theorem exec_xor_eq (ca cb : Operand) (s : State) :
    exec (.xor ca cb) s = .next (writeLoc (destination ca s) (operandA ca s ^^^ operandB ca cb s)
      { s with pc := lastWordAddress ca cb s, sp := spAfter ca cb s }).advancePc :=
  exec_of_executor_some (i := .xor ca cb) (o := none) rfl

/-- PC after an instruction that neither skips nor writes PC is its own address and its length (R208). -/
theorem lastWordAddress_add_one (i : Instr) (s : State) :
    lastWordAddress i.opA i.opB s + 1#16 = s.pc + BitVec.ofNat 16 i.length := by
  simp only [lastWordAddress, Instr.length, Instr.extWords, BitVec.add_assoc, Nat.add_comm 1, BitVec.ofNat_add]

/-- `SET` to a memory cell: the increment of PC commutes with the write to the cell. -/
theorem exec_set_of_mem {ca cb : Operand} {s : State} {a v p : Word} (cell : destination ca s = .mem a)
    (value : operandB ca cb s = v) (sp : spAfter ca cb s = p) :
    exec (.set ca cb) s = .next
      (({ s with pc := s.pc + BitVec.ofNat 16 (Instr.set ca cb).length, sp := p }).writeMem a v) := by
  rw [exec_set_eq, cell, value, sp, ← lastWordAddress_add_one]
  rfl

/-! ## PEEK as a destination (R111, R121) -/

/-- Settles O54: neither PEEK nor a small literal moves SP or reads an extension word. -/
theorem peekDestinationWritesTheTop : Obligations.PeekDestinationWritesTheTop := by
  intro v s
  have pc : lastWordAddress .peek (.lit v) s = s.pc := BitVec.add_zero _
  have sp : spAfter .peek (.lit v) s = s.sp := by simp [spAfter, spChange]
  have value : operandB .peek (.lit v) s = v := operandA_lit v s
  refine ⟨exec_set_of_mem (destination_peek s) value sp, ?_⟩
  rw [exec_add_eq, pc, sp, value]
  rfl

/-! ## Stack operands in both places (R122) -/

/-- Rewriting a cell of a canonical memory with the Word it holds changes nothing. -/
theorem State.writeMem_readMem_self {s : State} (h : s.mem.wf) (a : Word) : s.writeMem a (s.readMem a) = s := by
  have alike (x : Word) : (s.writeMem a (s.readMem a)).readMem x = s.readMem x := by
    rw [State.readMem_writeMem]
    split
    · next same => rw [same]
    · rfl
  have mem := canonicalMemoriesReadingAlikeAreEqual _ _ (State.writeMem_wf a _ h) h alike
  exact congrArg (fun m => { s with mem := m }) mem

theorem operandB_sp_pop (s : State) : operandB .sp .pop s = s.readMem s.sp := rfl
theorem lastWordAddress_sp_pop (s : State) : lastWordAddress .sp .pop s = s.pc := BitVec.add_zero _

/-- The write to SP comes after the POP and hides it (R205). -/
theorem exec_set_sp_pop (s : State) :
    exec (.set .sp .pop) s = .next { s with sp := s.readMem s.sp, pc := s.pc + 1#16 } := by
  rw [exec_set_eq, operandB_sp_pop, lastWordAddress_sp_pop]
  rfl

/-- Operand A is SP as it was before the POP (R203). -/
theorem exec_add_sp_pop (s : State) :
    exec (.add .sp .pop) s = .next { s with
      sp := s.sp + s.readMem s.sp
      o := decide (65535 < s.sp.toNat + (s.readMem s.sp).toNat)
      pc := s.pc + 1#16 } := by
  rw [exec_add_eq, operandA_sp, operandB_sp_pop, lastWordAddress_sp_pop]
  rfl

theorem exec_set_push_push (s : State) :
    exec (.set .push .push) s = .next
      (({ s with sp := s.sp - 2#16, pc := s.pc + 1#16 }).writeMem (s.sp - 1#16) (s.readMem (s.sp - 2#16))) := by
  have value : operandB .push .push s = s.readMem (s.sp - 2#16) :=
    congrArg s.readMem (show s.sp - 1#16 - 1#16 = s.sp - 2#16 by bv_omega)
  have sp : spAfter .push .push s = s.sp - 2#16 := by
    simp only [spAfter, spChange]
    bv_omega
  exact exec_set_of_mem (destination_push s) value sp

theorem exec_set_pop_pop (s : State) :
    exec (.set .pop .pop) s = .next
      (({ s with sp := s.sp + 2#16, pc := s.pc + 1#16 }).writeMem s.sp (s.readMem (s.sp + 1#16))) :=
  exec_set_of_mem (destination_pop s) (operandA_pop _) (BitVec.add_assoc ..)

theorem exec_set_regIndOff_regIndOff (r q : Reg) (s : State) :
    exec (.set (.regIndOff r) (.regIndOff q)) s = .next
      (({ s with pc := s.pc + 3#16 }).writeMem (s.reg r + s.readMem (s.pc + 1#16))
        (s.readMem (s.reg q + s.readMem (s.pc + 2#16)))) := by
  have value : operandB (.regIndOff r) (.regIndOff q) s = s.readMem (s.reg q + s.readMem (s.pc + 2#16)) := by
    simp [operandB, Operand.extWords, BitVec.add_assoc]
  have sp : spAfter (.regIndOff r) (.regIndOff q) s = s.sp := by simp [spAfter, spChange]
  exact exec_set_of_mem (destination_regIndOff r s) value sp

/-- The cell at SP gets the Word it holds, so a canonical memory stays as it is. -/
theorem exec_set_peek_pop {s : State} (canonical : s.mem.wf) :
    exec (.set .peek .pop) s = .next { s with sp := s.sp + 1#16, pc := s.pc + 1#16 } := by
  have sp : spAfter .peek .pop s = s.sp + 1#16 := by simp [spAfter, spChange]
  have written := exec_set_of_mem (destination_peek s) (operandA_pop s) sp
  exact written.trans (congrArg _
    (State.writeMem_readMem_self (s := { s with sp := s.sp + 1#16, pc := s.pc + 1#16 }) canonical s.sp))

/-- Settles O36: operand B reads by the SP and the PC that operand A's resolution leaves. -/
theorem mixedStackOperands : Obligations.MixedStackOperands :=
  fun s => ⟨exec_set_sp_pop s, exec_add_sp_pop s, exec_set_push_push s, exec_set_pop_pop s,
    fun r q => exec_set_regIndOff_regIndOff r q s, exec_set_peek_pop⟩

/-! ## The same register as both operands (R123) -/

section
variable (r q : Reg) (s : State)

theorem operandB_reg_reg : operandB (.reg r) (.reg q) s = s.reg q := rfl
theorem operandB_regInd_regInd : operandB (.regInd r) (.regInd q) s = s.readMem (s.reg q) := rfl
theorem lastWordAddress_reg_reg : lastWordAddress (.reg r) (.reg q) s = s.pc := BitVec.add_zero _
theorem spAfter_reg_reg : spAfter (.reg r) (.reg q) s = s.sp := by simp [spAfter, spChange]

end

/-- `SET [r], [q]` moves a cell (R103). -/
theorem exec_set_regInd_regInd (r q : Reg) (s : State) :
    exec (.set (.regInd r) (.regInd q)) s =
      .next (({ s with pc := s.pc + 1#16 }).writeMem (s.reg r) (s.readMem (s.reg q))) := by
  have sp : spAfter (.regInd r) (.regInd q) s = s.sp := by simp [spAfter, spChange]
  exact exec_set_of_mem (destination_regInd r s) (operandA_regInd q s) sp

theorem exec_add_reg_self (r : Reg) (s : State) :
    exec (.add (.reg r) (.reg r)) s =
      .next (((s.setReg r (2#16 * s.reg r)).setO (decide (32768 ≤ (s.reg r).toNat))).advancePc) := by
  have double : s.reg r + s.reg r = 2#16 * s.reg r := BitVec.two_mul.symm
  have above : (65535 < (s.reg r).toNat + (s.reg r).toNat) = (32768 ≤ (s.reg r).toNat) := by
    rw [eq_iff_iff]
    omega
  rw [exec_add_eq, lastWordAddress_reg_reg, spAfter_reg_reg, operandB_reg_reg, operandA_reg, double]
  simp only [above]
  rfl

theorem exec_xor_reg_self (r : Reg) (s : State) :
    exec (.xor (.reg r) (.reg r)) s = .next ((s.setReg r 0#16).advancePc) := by
  rw [exec_xor_eq, lastWordAddress_reg_reg, spAfter_reg_reg, operandB_reg_reg, operandA_reg, BitVec.xor_self]
  rfl

theorem exec_sub_reg_self (r : Reg) (s : State) :
    exec (.sub (.reg r) (.reg r)) s = .next (((s.setReg r 0#16).setO false).advancePc) := by
  rw [exec_sub_eq, lastWordAddress_reg_reg, spAfter_reg_reg, operandB_reg_reg, operandA_reg, BitVec.sub_self]
  simp only [lt_irrefl, decide_false]
  rfl

/-- Settles O37: no resolution writes a register, so operand B reads what operand A read. -/
theorem sameRegisterTwice : Obligations.SameRegisterTwice :=
  fun r s => ⟨operandB_reg_reg r r s, operandB_regInd_regInd r r s, fun q => exec_set_regInd_regInd r q s,
    exec_add_reg_self r s, exec_xor_reg_self r s, exec_sub_reg_self r s⟩

/-! ## Pushing and popping (R124) -/

/-- The Words of `n` cells from address `a` on; from SP on, the `n` topmost Words of the stack, the top first. -/
def State.cells (s : State) (a : Word) : Nat → List Word
  | 0 => []
  | n + 1 => s.readMem a :: s.cells (a + 1#16) n

theorem State.cells_congr {s t : State} (h : s.mem = t.mem) (a : Word) (n : Nat) : s.cells a n = t.cells a n := by
  induction n generalizing a with
  | zero => rfl
  | succ n ih => simp only [State.cells, State.readMem, h, ih]

/-- A write past the end of a run of cells leaves their Words. -/
theorem State.cells_writeMem_beyond (s : State) {a x : Word} (v : Word) {n : Nat} (h : n ≤ (x - a).toNat) :
    (s.writeMem x v).cells a n = s.cells a n := by
  induction n generalizing a with
  | zero => rfl
  | succ n ih =>
    have other : a ≠ x := by
      rintro rfl
      simp at h
    have rest : n ≤ (x - (a + 1#16)).toNat := by bv_omega
    rw [State.cells, State.cells, State.readMem_writeMem_other s v other, ih rest]

/-- A Word put below a stack of fewer than 65536 Words is its new top. -/
theorem State.cells_writeMem_below (s : State) (p v : Word) {n : Nat} (h : n < 65536) :
    (s.writeMem (p - 1#16) v).cells (p - 1#16) (n + 1) = v :: s.cells p n := by
  have distance : n ≤ (p - 1#16 - p).toNat := by bv_omega
  rw [State.cells, State.readMem_writeMem_same, BitVec.sub_add_cancel, State.cells_writeMem_beyond s v distance]

/-- `SET PUSH, c` puts the Word that `c` reads on top of the stack (R112). -/
theorem exec_set_push {c : Operand} (pop : c ≠ .pop) (push : c ≠ .push) (s : State) :
    ∃ t, exec (.set .push c) s = .next t ∧ t.sp = s.sp - 1#16 ∧
      ∀ n < 65536, t.cells t.sp (n + 1) = operandB .push c s :: s.cells s.sp n := by
  have sp : spAfter .push c s = s.sp - 1#16 := by
    rw [spAfter, spChange_of_not_stack pop push, BitVec.add_zero, BitVec.sub_eq_add_neg]
    rfl
  refine ⟨_, exec_set_of_mem (destination_push s) rfl sp, rfl, fun n bound => ?_⟩
  exact (State.cells_writeMem_below _ s.sp _ bound).trans (congrArg _ (State.cells_congr (by rfl) s.sp n))

/-- `SET r, POP` moves the top of the stack to a register and leaves the rest of it (R110). -/
theorem exec_set_reg_pop (r : Reg) (s : State) :
    ∃ t, exec (.set (.reg r) .pop) s = .next t ∧ t.reg r = s.readMem s.sp ∧ t.sp = s.sp + 1#16 ∧
      t.mem = s.mem := by
  have sp : spAfter (.reg r) .pop s = s.sp + 1#16 := by simp [spAfter, spChange]
  refine ⟨_, exec_set_eq (.reg r) .pop s, ?_, sp, rfl⟩
  exact State.setReg_reg_same ..

/-- Pushing onto a stack of `n` Words leaves the pushed Words above them, the last one pushed on top. -/
theorem pushAll_cells {cs : List Operand} (simple : ∀ c ∈ cs, c ≠ .pop ∧ c ≠ .push) {n : Nat}
    (fits : cs.length + n ≤ 65536) (s : State) :
    ∃ vs t, pushAll cs s = some (vs, t) ∧ vs.length = cs.length ∧ t.sp + BitVec.ofNat 16 cs.length = s.sp ∧
      t.cells t.sp (cs.length + n) = vs.reverse ++ s.cells s.sp n := by
  induction cs generalizing s n with
  | nil => exact ⟨[], s, rfl, rfl, BitVec.add_zero _, by simp⟩
  | cons c cs ih =>
    obtain ⟨⟨pop, push⟩, simple'⟩ := List.forall_mem_cons.mp simple
    rw [List.length_cons, Nat.add_right_comm] at fits
    obtain ⟨s', executed, sp', top⟩ := exec_set_push pop push s
    obtain ⟨vs, t, pushed, length, sp, stack⟩ := ih simple' (n := n + 1) fits s'
    refine ⟨operandB .push c s :: vs, t, ?_, by simp [length], ?_, ?_⟩
    · simp only [pushAll, executed, pushed, Option.map_some]
    · rw [List.length_cons, BitVec.ofNat_add, ← BitVec.add_assoc, sp, sp', BitVec.sub_add_cancel]
    · rw [List.length_cons, Nat.add_right_comm, Nat.add_assoc, stack, top n (by omega), List.reverse_cons,
        List.append_assoc, List.singleton_append]

/-- Popping into registers gives them the topmost Words of the stack in turn, since no pop writes memory. -/
theorem popAll_cells (rs : List Reg) (s : State) :
    ∃ u, popAll rs s = some (s.cells s.sp rs.length, u) ∧ u.sp = s.sp + BitVec.ofNat 16 rs.length := by
  induction rs generalizing s with
  | nil => exact ⟨s, rfl, (BitVec.add_zero _).symm⟩
  | cons r rs ih =>
    obtain ⟨s', executed, value, sp', mem⟩ := exec_set_reg_pop r s
    obtain ⟨u, popped, sp⟩ := ih s'
    refine ⟨u, ?_, ?_⟩
    · simp only [popAll, executed, popped, Option.map_some, value, sp', State.cells_congr mem, List.length_cons,
        State.cells]
    · rw [sp, sp', List.length_cons, Nat.add_comm, BitVec.ofNat_add, ← BitVec.add_assoc]

/-- Settles O42: the pushes leave the pushed Words in reverse order from SP on, and the pops read them from there. -/
theorem stackLifoLaw : Obligations.StackLifoLaw := by
  intro cs rs s lengths fits simple
  obtain ⟨vs, t, pushed, length, sp, stack⟩ := pushAll_cells simple (n := 0) fits s
  obtain ⟨u, popped, sp'⟩ := popAll_cells rs t
  have words : t.cells t.sp rs.length = vs.reverse := by simpa [lengths, State.cells] using stack
  exact ⟨vs, t, u, pushed, words ▸ popped, length, by rw [sp', lengths, sp]⟩

end Sys2Proof.Machine

/-! # NOP and SET (spec/41_nop_set.md): the proofs of that family -/

namespace Sys2Proof.Machine

/-- The four low bits of an instruction's word are its opcode number (R71). -/
theorem encodeWord_mod_16 (i : Instr) : (encodeWord i).toNat % 16 = i.opcode :=
  congrArg Fields.op (encodedFields i).1

/-! ## The two instructions (R140, R141) -/

theorem exec_nop_eq (ca cb : Operand) (s : State) :
    exec (.nop ca cb) s = .next { s with pc := lastWordAddress ca cb s + 1#16, sp := spAfter ca cb s } :=
  exec_of_executor_none (i := .nop ca cb) (k := false) rfl

/-- Settles O15: the executor of NOP gives neither a result nor a skip, so resolving the operands is all there is. -/
theorem nopOnlyResolves : Obligations.NopOnlyResolves :=
  fun ca cb s => ⟨encodeWord_mod_16 (.nop ca cb), exec_nop_eq ca cb s⟩

/-- Settles O16: the executor of SET gives the value of operand B as its result and keeps O. -/
theorem setCopiesOperandB : Obligations.SetCopiesOperandB :=
  fun ca cb _ => ⟨encodeWord_mod_16 (.set ca cb), writesResult_of_keep (i := .set ca cb) rfl⟩

/-! ## A zeroed memory (R140, R264) -/

/-- NOP with two register operands is one word long and moves nothing but PC. -/
theorem exec_nop_reg_reg (r q : Reg) (s : State) : exec (.nop (.reg r) (.reg q)) s = .next s.advancePc := by
  rw [exec_nop_eq, lastWordAddress_reg_reg, spAfter_reg_reg]
  rfl

/-- Between ticks, the word 0 at PC runs as the one-word `NOP A, A`. -/
theorem step_of_zero_word {s : State} (idle : s.idle) (zero : s.readMem s.pc = 0#16) : step s = .next s.advancePc := by
  have decoded : decodeWord (s.readMem s.pc) = .ok (.nop (.reg .a) (.reg .a)) := by rw [zero]; rfl
  exact (step_of_idle idle decoded).trans (exec_nop_reg_reg .a .a s)

theorem run_succ_of_step {s t : State} (h : step s = .next t) (k : Nat) :
    Host.Core.run core (k + 1) s = Host.Core.run core k t := by
  have stepped : core.step s = .next t := h
  simp only [Host.Core.run, stepped]

/-- From any idle state whose every cell holds 0, each of `k` steps moves PC one further and changes nothing else, so
the next step starts from such a state again. -/
theorem run_of_zeroed_memory (k : Nat) {s : State} (idle : s.idle) (zero : ∀ a, s.readMem a = 0#16) :
    Host.Core.run core k s = .next (s.setPc (s.pc + BitVec.ofNat 16 k)) := by
  induction k generalizing s with
  | zero => rw [BitVec.add_zero]; rfl
  | succ k ih =>
    have pc : s.pc + 1#16 + BitVec.ofNat 16 k = s.pc + BitVec.ofNat 16 (k + 1) := by
      rw [BitVec.add_assoc, Nat.add_comm k 1, BitVec.ofNat_add]
    calc Host.Core.run core (k + 1) s
        = Host.Core.run core k s.advancePc := run_succ_of_step (step_of_zero_word idle (zero s.pc)) k
      _ = .next (s.advancePc.setPc (s.pc + 1#16 + BitVec.ofNat 16 k)) := ih idle zero
      _ = .next (s.setPc (s.pc + BitVec.ofNat 16 (k + 1))) := by rw [pc]; rfl

/-- Settles O14: the reset state is idle and its memory is zeroed. -/
theorem zeroedMemoryRunsAsNops : Obligations.ZeroedMemoryRunsAsNops := by
  intro k
  have run := run_of_zeroed_memory k (s := State.reset) rfl (fun _ => rfl)
  rwa [show State.reset.pc + BitVec.ofNat 16 k = BitVec.ofNat 16 k from BitVec.zero_add _] at run

end Sys2Proof.Machine

/-! # Arithmetic and shifts (spec/42_arithmetic.md): the proofs of that family -/

namespace Sys2Proof.Machine

/-! ## What each executor hands to the tick (R150 to R165) -/

/-- The family law for a raw result that fits a Word: the result itself, and O cleared. -/
theorem arithmetic_of_lt {n : Nat} (h : n < 65536) :
    arithmetic (n : Int) = { result := some (BitVec.ofNat 16 n), skip := false, o := some false } := by
  rw [arithmetic, maskRaw_natCast, outOfRange_of_lt h]

theorem aluMul_eq (a b : Word) :
    aluMul a b = { result := some (a * b), skip := false, o := some (decide (65535 < a.toNat * b.toNat)) } := by
  rw [aluMul, ← Int.natCast_mul, arithmetic_natCast, BitVec.ofNat_mul, BitVec.ofNat_toNat, BitVec.ofNat_toNat]
  rfl

theorem aluDiv_zero (a : Word) : aluDiv a 0#16 = { result := some 0#16, skip := false, o := some true } :=
  if_pos rfl

theorem aluDiv_of_ne_zero (a : Word) {b : Word} (h : b ≠ 0#16) :
    aluDiv a b = { result := some (BitVec.ofNat 16 (a.toNat / b.toNat)), skip := false, o := some false } :=
  (if_neg h).trans (arithmetic_of_lt (Nat.div_lt_of_lt a.isLt))

theorem aluDiv_eq (a b : Word) :
    aluDiv a b = {
      result := some (if b = 0#16 then 0#16 else BitVec.ofNat 16 (a.toNat / b.toNat))
      skip := false
      o := some (decide (b = 0#16)) } := by
  by_cases zero : b = 0#16
  · subst zero
    exact aluDiv_zero a
  · rw [aluDiv_of_ne_zero a zero, if_neg zero, decide_eq_false zero]

theorem aluMod_zero (a : Word) : aluMod a 0#16 = { result := some 0#16, skip := false, o := some false } :=
  if_pos rfl

theorem aluMod_of_ne_zero (a : Word) {b : Word} (h : b ≠ 0#16) :
    aluMod a b = { result := some (BitVec.ofNat 16 (a.toNat % b.toNat)), skip := false, o := some false } :=
  (if_neg h).trans (arithmetic_of_lt (Nat.mod_lt_of_lt a.isLt))

theorem aluMod_eq (a b : Word) :
    aluMod a b = {
      result := some (if b = 0#16 then 0#16 else BitVec.ofNat 16 (a.toNat % b.toNat))
      skip := false
      o := some false } := by
  by_cases zero : b = 0#16
  · subst zero
    exact aluMod_zero a
  · rw [aluMod_of_ne_zero a zero, if_neg zero]

theorem aluShl_eq (a b : Word) :
    aluShl a b = {
      result := some (BitVec.ofNat 16 (a.toNat * 2 ^ b.toNat))
      skip := false
      o := some (decide (65535 < a.toNat * 2 ^ b.toNat)) } := by
  rw [aluShl, Nat.shiftLeft_eq, arithmetic_natCast]

theorem aluShr_eq (a b : Word) :
    aluShr a b = { result := some (BitVec.ofNat 16 (a.toNat / 2 ^ b.toNat)), skip := false, o := some false } := by
  rw [aluShr, Nat.shiftRight_eq_div_pow, arithmetic_of_lt (Nat.div_lt_of_lt a.isLt)]

theorem toNat_pos_iff_ne_zero {a : Word} : 0 < a.toNat ↔ a ≠ 0#16 := by
  rw [BitVec.toNat_ne]
  exact Nat.pos_iff_ne_zero

/-! ## ADD, SUB, MUL, DIV and MOD (R151 to R161) -/

/-- Settles O17: the exact sum, masked. -/
theorem addResult : Obligations.AddResult :=
  fun ca cb _ => ⟨encodeWord_mod_16 (.add ca cb), writesResult_of_flag (i := .add ca cb) (aluAdd_eq _ _)⟩

/-- Settles O18: the exact difference is negative exactly on a borrow. -/
theorem subResult : Obligations.SubResult :=
  fun ca cb _ => ⟨encodeWord_mod_16 (.sub ca cb), writesResult_of_flag (i := .sub ca cb) (aluSub_eq _ _)⟩

/-- Settles O19: the exact product, masked. -/
theorem mulResult : Obligations.MulResult :=
  fun ca cb _ => ⟨encodeWord_mod_16 (.mul ca cb), writesResult_of_flag (i := .mul ca cb) (aluMul_eq _ _)⟩

/-- Settles O20: a quotient is never above the dividend, so only a zero divisor sets O. -/
theorem divResult : Obligations.DivResult :=
  fun ca cb _ => ⟨encodeWord_mod_16 (.div ca cb), writesResult_of_flag (i := .div ca cb) (aluDiv_eq _ _)⟩

/-- Settles O21: a remainder is never above the dividend, so nothing sets O. -/
theorem modResult : Obligations.ModResult :=
  fun ca cb _ => ⟨encodeWord_mod_16 (.mod ca cb), writesResult_of_flag (i := .mod ca cb) (aluMod_eq _ _)⟩

/-- Settles O39: quotient and remainder fit a Word, so masking them changes neither. -/
theorem divisionLaw : Obligations.DivisionLaw := by
  intro ca cb a b
  constructor
  · intro nonzero
    have quotient : (BitVec.ofNat 16 (a.toNat / b.toNat)).toNat = a.toNat / b.toNat :=
      (BitVec.toNat_ofNat ..).trans (Nat.mod_eq_of_lt (Nat.div_lt_of_lt a.isLt))
    have remainder : (BitVec.ofNat 16 (a.toNat % b.toNat)).toNat = a.toNat % b.toNat :=
      (BitVec.toNat_ofNat ..).trans (Nat.mod_eq_of_lt (Nat.mod_lt_of_lt a.isLt))
    refine ⟨_, _, aluDiv_of_ne_zero a nonzero, aluMod_of_ne_zero a nonzero, ?_, ?_⟩
    · rw [quotient, remainder, Nat.div_add_mod]
    · rw [remainder]
      exact Nat.mod_lt _ (toNat_pos_iff_ne_zero.mpr nonzero)
  · rintro rfl
    exact ⟨aluDiv_zero a, aluMod_zero a⟩

/-! ## SHL and SHR (R163 to R167) -/

/-- `a * 2 ^ n` leaves the Word exactly when `a` has a bit among its `n` highest. -/
theorem lt_mul_two_pow_iff (a n : Nat) : 65535 < a * 2 ^ n ↔ 2 ^ (16 - n) ≤ a := by
  rcases Nat.le_total n 16 with small | large
  · have factors : 65536 = 2 ^ (16 - n) * 2 ^ n := by rw [← Nat.pow_add, Nat.sub_add_cancel small]
    calc 65535 < a * 2 ^ n
        ↔ 2 ^ (16 - n) * 2 ^ n ≤ a * 2 ^ n := by rw [← factors]; rfl
      _ ↔ 2 ^ (16 - n) ≤ a := Nat.mul_le_mul_right_iff (Nat.two_pow_pos n)
  · have bound : 2 ^ 16 ≤ 2 ^ n := Nat.pow_le_pow_right Nat.two_pos large
    rw [Nat.sub_eq_zero_of_le large, Nat.pow_zero]
    constructor
    · intro above
      refine Nat.pos_of_ne_zero fun zero => ?_
      simp [zero] at above
    · exact fun nonzero => bound.trans (Nat.le_mul_of_pos_left _ nonzero)

/-- A logical right shift leaves a bit exactly when the Word has one that high. -/
theorem ushiftRight_ne_zero_iff (a : Word) (k : Nat) : a >>> k ≠ 0#16 ↔ 2 ^ k ≤ a.toNat := by
  rw [← toNat_pos_iff_ne_zero, BitVec.toNat_ushiftRight, Nat.shiftRight_eq_div_pow,
    Nat.div_pos_iff, and_iff_right (Nat.two_pow_pos k)]

/-- The finite form of SHL's flag: a count of 0, of 1 to 15, and of 16 or more (R163). -/
theorem shl_flag_finite_form (a : Word) (n : Nat) :
    decide (65535 < a.toNat * 2 ^ n) =
      (if n = 0 then false else if n ≤ 15 then decide (a >>> (16 - n) ≠ 0#16) else decide (a ≠ 0#16)) := by
  simp only [lt_mul_two_pow_iff]
  split
  · next zero =>
    subst zero
    exact decide_eq_false (Nat.not_le.mpr a.isLt)
  split
  · simp only [ushiftRight_ne_zero_iff]
  · next nonzero large =>
    rw [decide_eq_decide, show 16 - n = 0 by omega]
    exact toNat_pos_iff_ne_zero

/-- Settles O22: the flag is the overflow law on the unbounded product, and its finite form agrees with it. -/
theorem shlResult : Obligations.ShlResult :=
  fun ca cb _ => ⟨encodeWord_mod_16 (.shl ca cb), writesResult_of_flag (i := .shl ca cb) (aluShl_eq _ _),
    shl_flag_finite_form _ _⟩

/-- Settles O23: a Word shifted right is never above itself, so nothing sets O. -/
theorem shrResult : Obligations.ShrResult :=
  fun ca cb _ => ⟨encodeWord_mod_16 (.shr ca cb), writesResult_of_flag (i := .shr ca cb) (aluShr_eq _ _)⟩

theorem aluShl_of_large (a : Word) {b : Word} (h : 16 ≤ b.toNat) :
    aluShl a b = { result := some 0#16, skip := false, o := some (decide (a ≠ 0#16)) } := by
  have result : BitVec.ofNat 16 (a.toNat * 2 ^ b.toNat) = 0#16 := by
    apply BitVec.eq_of_toNat_eq
    rw [BitVec.toNat_ofNat]
    exact Nat.mod_eq_zero_of_dvd ((Nat.pow_dvd_pow 2 h).mul_left a.toNat)
  have flag := shl_flag_finite_form a b.toNat
  rw [if_neg (by omega), if_neg (by omega)] at flag
  rw [aluShl_eq, result, flag]

theorem aluShr_of_large (a : Word) {b : Word} (h : 16 ≤ b.toNat) :
    aluShr a b = { result := some 0#16, skip := false, o := some false } := by
  have result : a.toNat / 2 ^ b.toNat = 0 :=
    Nat.div_eq_of_lt (a.isLt.trans_le (Nat.pow_le_pow_right Nat.two_pos h))
  rw [aluShr_eq, result]

/-- Settles O40: the count is not reduced modulo 16. -/
theorem largeShiftCounts : Obligations.LargeShiftCounts :=
  fun ca cb _ large => ⟨writesResult_of_flag (i := .shl ca cb) (aluShl_of_large _ large),
    writesResult_of_flag (i := .shr ca cb) (aluShr_of_large _ large)⟩

/-! ## A literal, O and PC as destination (R169) -/

/-- An opcode that writes O hands over a result and a flag, and no skip (R150). -/
theorem executor_of_writesO {i : Instr} (h : writesO i = true) (a b : Word) :
    ∃ v o, executor i a b = { result := some v, skip := false, o := some o } := by
  obtain ⟨result, flag, noSkip⟩ := executor_shape i a b
  have writes : writesA i = true := by cases i <;> simp_all [writesO, writesA]
  rw [writes] at result
  rw [h] at flag
  obtain ⟨v, hv⟩ := Option.isSome_iff_exists.mp result
  obtain ⟨o, ho⟩ := Option.isSome_iff_exists.mp flag
  exact ⟨v, o, by rw [← hv, ← ho, ← noSkip writes]⟩

/-- With a literal destination the result is discarded and the flag stays (R108, R169). -/
theorem exec_of_literal_destination {i : Instr} {s : State} {v : Word} (writes : writesO i = true)
    (literal : destination i.opA s = .lit v) :
    ∃ b, (executor i (operandA i.opA s) (operandB i.opA i.opB s)).o = some b ∧
      exec i s = .next { s with
        o := b, pc := lastWordAddress i.opA i.opB s + 1#16, sp := spAfter i.opA i.opB s } := by
  obtain ⟨v, b, handed⟩ := executor_of_writesO writes (operandA i.opA s) (operandB i.opA i.opB s)
  refine ⟨b, congrArg Executed.o handed, ?_⟩
  rw [exec_of_executor_some handed, literal]
  rfl

/-- The write of 2 to O comes after the executor cleared O (R121). -/
theorem exec_add_o_one {s : State} (h : s.o = true) :
    exec (.add .o (.lit 1#16)) s = .next { s with o := true, pc := s.pc + 1#16 } := by
  have pc : lastWordAddress .o (.lit 1#16) s = s.pc := BitVec.add_zero _
  have sp : spAfter .o (.lit 1#16) s = s.sp := by simp [spAfter, spChange]
  rw [exec_add_eq, pc, sp, operandA_o, h]
  rfl

/-- PC is read as the instruction's own address, and the increment follows the write (R114, R206). -/
theorem exec_add_pc_two (s : State) :
    exec (.add .pc (.lit 2#16)) s =
      .next { s with pc := s.pc + 3#16, o := decide (65535 < s.pc.toNat + 2) } := by
  have sp : spAfter .pc (.lit 2#16) s = s.sp := by simp [spAfter, spChange]
  have pc : s.pc + 2#16 + 1#16 = s.pc + 3#16 := BitVec.add_assoc ..
  rw [exec_add_eq, sp, operandA_pc, ← pc]
  rfl

/-- Settles O38: the flag update comes before the write-back, and the increment of PC after it. -/
theorem arithmeticDestinations : Obligations.ArithmeticDestinations :=
  ⟨fun _ _ _ writes literal => exec_of_literal_destination writes literal, fun _ => exec_add_o_one, exec_add_pc_two⟩

end Sys2Proof.Machine

/-! # Bitwise operations (spec/43_bitwise.md): the proofs of that family

Each executor hands over a result and keeps O, so `writesResult_of_keep` says what its instruction does to the state;
what is left is what each bit of that result is. -/

namespace Sys2Proof.Machine

/-- Settles O24: a bit of the result depends on that bit of each operand only, and the executor hands over no flag. -/
theorem andResult : Obligations.AndResult :=
  fun ca cb s => ⟨encodeWord_mod_16 (.and ca cb), operandA ca s &&& operandB ca cb s,
    fun _ _ => BitVec.getLsbD_and, writesResult_of_keep (i := .and ca cb) rfl⟩

/-- Settles O25, as `andResult` with the inclusive or. -/
theorem borResult : Obligations.BorResult :=
  fun ca cb s => ⟨encodeWord_mod_16 (.bor ca cb), operandA ca s ||| operandB ca cb s,
    fun _ _ => BitVec.getLsbD_or, writesResult_of_keep (i := .bor ca cb) rfl⟩

/-- Settles O26, as `andResult` with the exclusive or. -/
theorem xorResult : Obligations.XorResult :=
  fun ca cb s => ⟨encodeWord_mod_16 (.xor ca cb), operandA ca s ^^^ operandB ca cb s,
    fun _ _ => BitVec.getLsbD_xor, writesResult_of_keep (i := .xor ca cb) rfl⟩

end Sys2Proof.Machine

/-! # Conditionals (spec/44_conditional.md): the proofs of that family

No executor of the family gives a result or a flag (R194), so one lemma says what a conditional does to the state, and
each instruction only has its condition restated in the statements' words. -/

namespace Sys2Proof.Machine

/-! ## The family law (R194, R195) -/

/-- A conditional goes on to the next word if its condition holds and skips one word if not; SP moves by resolution. -/
theorem exec_of_unlessHolds {i : Instr} {s : State} {condition : Prop} [Decidable condition]
    (h : executor i (operandA i.opA s) (operandB i.opA i.opB s) = unlessHolds (decide condition)) :
    exec i s = .next { s with
      pc := lastWordAddress i.opA i.opB s + (if condition then 1#16 else 2#16), sp := spAfter i.opA i.opB s } := by
  rw [exec_of_executor_none h]
  by_cases holds : condition
  · rw [decide_eq_true holds, if_pos holds]
    rfl
  · rw [decide_eq_false holds, if_neg holds]
    rfl

/-! ## The conditions, on the values of the operands (R190 to R193) -/

theorem aluIfe_eq (a b : Word) : aluIfe a b = unlessHolds (decide (a.toNat = b.toNat)) := by
  simp only [aluIfe, BitVec.toNat_inj]

theorem aluIfn_eq (a b : Word) : aluIfn a b = unlessHolds (decide (¬ a.toNat = b.toNat)) := by
  simp only [aluIfn, BitVec.toNat_inj, ne_eq]

theorem aluIfg_eq (a b : Word) : aluIfg a b = unlessHolds (decide (¬ a.toNat ≤ b.toNat)) := by
  simp only [aluIfg, not_le]

/-- The conjunction of two Words is nonzero exactly when they have a set bit in common. -/
theorem and_ne_zero_iff_common_bit (a b : Word) :
    a &&& b ≠ 0#16 ↔ ∃ k < 16, a.getLsbD k = true ∧ b.getLsbD k = true := by
  constructor
  · intro nonzero
    by_contra none_common
    refine nonzero (BitVec.eq_of_getLsbD_eq fun k hk => ?_)
    have not_both : ¬ (a.getLsbD k = true ∧ b.getLsbD k = true) := fun both => none_common ⟨k, hk, both⟩
    simpa using not_both
  · rintro ⟨k, -, ha, hb⟩ zero
    have bit : (a &&& b).getLsbD k = true := by rw [BitVec.getLsbD_and, ha, hb]; rfl
    rw [zero, BitVec.getLsbD_zero] at bit
    cases bit

/-! ## The four instructions -/

/-- Settles O27: two Words are equal exactly when their values are. -/
theorem ifeSkipsUnlessEqual : Obligations.IfeSkipsUnlessEqual :=
  fun ca cb _ => ⟨encodeWord_mod_16 (.ife ca cb), exec_of_unlessHolds (i := .ife ca cb) (aluIfe_eq _ _)⟩

/-- Settles O28: the statement names the case that skips first, the executor the case that does not. -/
theorem ifnSkipsUnlessDifferent : Obligations.IfnSkipsUnlessDifferent := by
  intro ca cb s
  have executed := exec_of_unlessHolds (i := .ifn ca cb) (s := s) (aluIfn_eq _ _)
  rw [ite_not] at executed
  exact ⟨encodeWord_mod_16 (.ifn ca cb), executed⟩

/-- Settles O29: IFG skips exactly when A is not above B. -/
theorem ifgSkipsUnlessAbove : Obligations.IfgSkipsUnlessAbove := by
  intro ca cb s
  have executed := exec_of_unlessHolds (i := .ifg ca cb) (s := s) (aluIfg_eq _ _)
  rw [ite_not] at executed
  exact ⟨encodeWord_mod_16 (.ifg ca cb), executed⟩

/-- Settles O30: the executor tests the conjunction of the operands, which is nonzero by a common bit. -/
theorem ifbSkipsUnlessCommonBit : Obligations.IfbSkipsUnlessCommonBit := by
  intro ca cb s
  have executed := exec_of_unlessHolds (i := .ifb ca cb) (s := s)
    (condition := operandA ca s &&& operandB ca cb s ≠ 0#16) rfl
  have test := and_ne_zero_iff_common_bit (operandA ca s) (operandB ca cb s)
  refine ⟨encodeWord_mod_16 (.ifb ca cb), fun common => ?_, fun none_common => ?_⟩
  · rwa [if_pos (test.mpr common)] at executed
  · rwa [if_neg (mt test.mp none_common)] at executed

end Sys2Proof.Machine

/-! # The tick (spec/45_tick_sequencer.md): the proofs of that family -/

namespace Sys2Proof.Machine

/-- Settles O7: `busy` passes through the tick, and fetching and decoding leave the state as it was. -/
theorem stepRunsDecodedInstruction : Obligations.StepRunsDecodedInstruction :=
  fun _ _ => step_of_idle

/-! ## PC through steps 4 to 6: the skip, the write-back, the increment (R24, R195, R206) -/

theorem writeLoc_pc_other {l : Loc} (v : Word) (s : State) (h : l ≠ .pc) : (writeLoc l v s).pc = s.pc := by
  cases l with
  | pc => exact absurd rfl h
  | _ => rfl

theorem writeBack_pc_other {l : Loc} {result : Option Word} (s : State) (h : result.isSome = true → l ≠ .pc) :
    (writeBack l result s).pc = s.pc := by
  cases result with
  | none => rfl
  | some v => exact writeLoc_pc_other v s (h rfl)

theorem applySkip_applyO_pc (skip : Bool) (o : Option Bool) (s : State) :
    (applySkip skip (applyO o s)).pc = if skip then s.pc + 1#16 else s.pc := by
  cases skip <;> cases o <;> rfl

/-- Without a result for PC, a tick moves PC by the skip and the increment. -/
theorem finishTick_pc_other {l : Loc} {e : Executed} (s : State) (h : e.result.isSome = true → l ≠ .pc) :
    (finishTick l e s).pc = (if e.skip then s.pc + 1#16 else s.pc) + 1#16 := by
  rw [finishTick, State.advancePc_pc, writeBack_pc_other _ h, applySkip_applyO_pc]

/-- A result for PC replaces what the skip made of it, and the increment follows (R206). -/
theorem finishTick_pc_same {e : Executed} {v : Word} (s : State) (h : e.result = some v) :
    (finishTick .pc e s).pc = v + 1#16 := by
  rw [finishTick, h]
  rfl

/-! ## The next fetch address (R208) -/

/-- Unless a result is written to PC, the next fetch address is the instruction's end, or one word after it on a
skip. -/
theorem runTick_pc_of_written_ne {i : Instr} {s : State} (h : written i s ≠ some .pc) :
    (runTick i.opA i.opB (executor i) s).pc =
      if (executor i (operandA i.opA s) (operandB i.opA i.opB s)).skip then
        s.pc + BitVec.ofNat 16 i.length + 1#16
      else s.pc + BitVec.ofNat 16 i.length := by
  rw [runTick_eq, finishTick_pc_other _ (destination_ne_of_written_ne h), ← lastWordAddress_add_one]
  split <;> rfl

/-- The value written to PC hides the instruction's own address; only the increment comes after it (R206). -/
theorem runTick_pc_of_written {i : Instr} {s : State} {v : Word} (pc : written i s = some .pc)
    (result : (executor i (operandA i.opA s) (operandB i.opA i.opB s)).result = some v) :
    (runTick i.opA i.opB (executor i) s).pc = v + 1#16 := by
  rw [runTick_eq, destination_of_written pc]
  exact finishTick_pc_same _ result

/-- An instruction that skips is a conditional, which writes no location (R194). -/
theorem written_eq_none_of_skip {i : Instr} {s : State} {a b : Word} (skip : (executor i a b).skip = true) :
    written i s = none := by
  obtain ⟨-, -, noSkip⟩ := executor_shape i a b
  have noWrite : ¬ writesA i = true := fun writes => Bool.false_ne_true ((noSkip writes).symm.trans skip)
  exact if_neg noWrite

/-- Settles O31: an instruction that skips writes no location, so PC moves by the skip and the increment alone. -/
theorem nextFetchAddress : Obligations.NextFetchAddress := by
  intro i s
  refine ⟨_, exec_eq_runTick i s, fun noSkip notPc => ?_, fun skip => ?_, fun T => runTick_pc_of_written⟩
  · rw [runTick_pc_of_written_ne notPc, noSkip]
    rfl
  · have notPc : written i s ≠ some .pc := by simp [written_eq_none_of_skip skip]
    rw [runTick_pc_of_written_ne notPc, if_pos skip]

end Sys2Proof.Machine

/-! # The single failure class, FatalDecode (spec/60_exceptions.md): the proofs of that family -/

namespace Sys2Proof
open Machine

/-! ## Field triples that decode to nothing (R230; the order A, B, opcode is log entry 7) -/

theorem decodeOpcode_of_ge {op : Nat} (h : 16 ≤ op) (a b : Operand) : decodeOpcode op a b = .error (.opcode op) := by
  obtain ⟨k, rfl⟩ := Nat.exists_eq_add_of_le' h
  rfl

theorem decodeFields_of_a_ge {f : Fields} (h : 64 ≤ f.a) : decodeFields f = .error (.valueCode f.a) := by
  rw [decodeFields, decodeOperand_of_ge h]

theorem decodeFields_of_b_ge {f : Fields} (ha : f.a < 64) (hb : 64 ≤ f.b) :
    decodeFields f = .error (.valueCode f.b) := by
  obtain ⟨a, readA⟩ := decodeOperand_ok ha
  simp only [decodeFields, readA, decodeOperand_of_ge hb]

theorem decodeFields_of_op_ge {f : Fields} (ha : f.a < 64) (hb : f.b < 64) (hop : 16 ≤ f.op) :
    decodeFields f = .error (.opcode f.op) := by
  obtain ⟨a, readA⟩ := decodeOperand_ok ha
  obtain ⟨b, readB⟩ := decodeOperand_ok hb
  simp only [decodeFields, readA, readB, decodeOpcode_of_ge hop]

/-- Settles O6: each field is looked at only when the fields before it are in range. -/
theorem outOfRangeFieldsRejected : Obligations.OutOfRangeFieldsRejected :=
  fun _ => ⟨decodeFields_of_a_ge, decodeFields_of_b_ge, decodeFields_of_op_ge⟩

/-! ## FatalDecode is unreachable (R231) -/

/-- Settles O8: during a tick the step is refused, and between ticks every fetched Word decodes, so that it completes. -/
theorem noStepFaults : Obligations.NoStepFaults := by
  intro s f fault
  cases busy : s.busy with
  | true => cases (step_of_busy busy).symm.trans fault
  | false =>
    obtain ⟨t, completed, -, -⟩ := idleStepCompletes s busy
    cases completed.symm.trans fault

end Sys2Proof

/-! # Reset, boot and hazards (spec/70_reset_and_hazards.md): the proofs of that family -/

namespace Sys2Proof.Machine

/-- Settles O35: the PC that operand B reads is the one operand A's resolution leaves. -/
theorem pcOperandReads : Obligations.PcOperandReads := by
  intro ca s
  refine ⟨operandA_pc s, ?_⟩
  rw [operandB, operandA_pc, resolve_pc, add_extWords]

/-! ## A word placed for the next tick (R262; log entry 10) -/

/-- A table word of 16 bits is placed as itself with zero words after it. -/
theorem wordsOf_word (w : Word) :
    wordsOf Config.longestInstruction (w.toNat % 2 ^ 16) = [w, 0#16, 0#16] := by
  have below : w.toNat / 65536 = 0 := Nat.div_eq_of_lt w.isLt
  simp [wordsOf, Nat.mod_eq_of_lt w.isLt, below]

/-- Enough words follow a placed word for any instruction, so the table decoder reads what the tick's decoder does. -/
theorem decodeTableWord_of_decodeWord {w : Word} {i : Instr} (decoded : decodeWord w = .ok i) :
    decodeTableWord 16 w.toNat = some i := by
  have fits : i.extWords ≤ [0#16, 0#16].length := Nat.add_le_add (extWords_le_one i.opA) (extWords_le_one i.opB)
  simp only [decodeTableWord, wordsOf_word, decode, decoded, if_pos fits]

theorem State.withFetchWord_idle (s : State) (nbits w : Nat) : (s.withFetchWord nbits w).idle := rfl

theorem State.withFetchWord_pc (s : State) (nbits w : Nat) : (s.withFetchWord nbits w).pc = s.pc := by
  rw [State.withFetchWord, State.endTick_pc, State.storeWords_eq]

/-- The placed word is what the next tick fetches (R201). -/
theorem State.withFetchWord_fetch (s : State) (w : Word) :
    (s.withFetchWord 16 w.toNat).readMem (s.withFetchWord 16 w.toNat).pc = w := by
  have count : [w, 0#16, 0#16].length ≤ 65536 := by simp
  rw [State.withFetchWord_pc, State.withFetchWord, wordsOf_word, State.endTick_readMem,
    State.readMem_storeWords _ _ _ count, BitVec.sub_self]
  rfl

/-- Settles O49: the state is idle, its cell at PC holds the word, and the word decodes to the table's instruction. -/
theorem placedWordRunsNext : Obligations.PlacedWordRunsNext := by
  intro s w
  obtain ⟨i, decoded⟩ := decodeWord_ok w
  have fetched := (congrArg decodeWord (s.withFetchWord_fetch w)).trans decoded
  exact ⟨i, decodeTableWord_of_decodeWord decoded, step_of_idle (s.withFetchWord_idle 16 w.toNat) fetched⟩

end Sys2Proof.Machine

/-! # The decoding table of spec/95_test_vectors.md section 2: the proof of that family -/

namespace Sys2Proof

/-- Settles O1: decoding inverts encoding, so it is enough that each instruction of the table is well formed and has
its word as encoding. -/
theorem specWordsDecode : Obligations.SpecWordsDecode := by
  refine ⟨?nop, ?add, ?ifg, ?setRegIndOff, ?setAbsMem, ?setPc, ?ifb⟩ <;>
    exact decodeWord_eq_ok_iff.mpr ⟨rfl, rfl⟩

end Sys2Proof
